-- ==== Sys2Proof/Word.lean ====
section
/-! DEFINITION. The widths of the block's registers and ports (00_scope.md R11, 10_state.md R20) and
the three register offsets (20_memory.md R46). Every value is unsigned (R13). -/

namespace Sys2Proof

/-- One line or one serial bit: bits(1). -/
abbrev Bit := BitVec 1
/-- `DATA_WIDTH` and `DIR_WIDTH` of R11: one bit per GPIO line. -/
abbrev Lines := BitVec 4
/-- `CNT_WIDTH` of R11 (D13): the bit counters. -/
abbrev Count := BitVec 7
/-- A command byte, a BCD byte, `RTC.state`. -/
abbrev Byte := BitVec 8
/-- `BUS_DATA_WIDTH` of R11: the value of a read or a write. -/
abbrev HalfWord := BitVec 16
/-- `ADDR_WIDTH` of R11 (D2): an offset inside the peripheral's window. -/
abbrev Addr := BitVec 32
/-- `RBITS_WIDTH` and `WBITS_WIDTH` of R11: the serial shift registers. -/
abbrev Shift := BitVec 64

/-- Offset of the data register (R46). -/
abbrev dataOffset : Addr := 0xC4#32
/-- Offset of the direction register (R46). -/
abbrev dirOffset : Addr := 0xC6#32
/-- Offset of the read-enable register (R46). -/
abbrev enOffset : Addr := 0xC8#32

end Sys2Proof
end

