-- ==== Sys2Proof/Config.lean ====
section
/-! DEFINITION. The parameters of 00_scope.md R11 that are not widths, and the two types of the
time-source port (R12). -/

namespace Sys2Proof

/-- `UNKNOWN_CMD_MODE` of R11 (D12): which of the two readings of an unrecognised command byte the
block follows (42_rtc_commands.md R126 and R127). -/
inductive UnknownCmdMode where
  | lockup
  | ignore
deriving DecidableEq, Repr

/-- What the time source answers to a sample: seven numbers, not yet known to be in the domain of
the BCD encoder (log 4). -/
structure TimeAnswer where
  yy : Nat
  mo : Nat
  dd : Nat
  wd : Nat
  hh : Nat
  mi : Nat
  ss : Nat
deriving DecidableEq, Repr

/-- `DateTime` of R12: year-of-century, month, day-of-month, weekday, hour, minute and second, each
a natural number in 0..99. -/
structure DateTime where
  yy : Fin 100
  mo : Fin 100
  dd : Fin 100
  wd : Fin 100
  hh : Fin 100
  mi : Fin 100
  ss : Fin 100
deriving DecidableEq, Repr

/-- The type of `TIME_VALID` (R11): an OPEN predicate on `DateTime`. The model takes it as an argument:
a claim that assumes it of the time source is over every value of it (`TimeSourceMeets` in Safety.lean).
The block never checks it (R12), so no meaning takes it. -/
abbrev TimeValid := DateTime → Bool

/-- The default value of `TIME_VALID` (R11, D14). PRESUMED for dd, hh, mi and ss (G1, log 16). -/
def Config.timeValidDefault : TimeValid := fun t =>
  1 ≤ t.mo.val && t.mo.val ≤ 12 && t.wd.val ≤ 6 && 1 ≤ t.dd.val && t.dd.val ≤ 31 &&
    t.hh.val ≤ 23 && t.mi.val ≤ 59 && t.ss.val ≤ 59

/-- `GPIO_WINDOW_BASE` of R11 (D3): OPEN, and never read by the block (20_memory.md R47). It has no
body, so nothing can be proved of its value (log 17). -/
opaque Config.gpioWindowBase : Addr

end Sys2Proof
end

