-- ==== Sys2Proof/Machine/Bcd.lean ====
section
/-! DEFINITION. The BCD encoder and decoder (43_bcd.md) and the time-source boundary (R139). -/

namespace Sys2Proof.Machine

/-- `bcd(x)`, on 0..99 only (R133, R139). -/
def bcd (x : Fin 100) : Byte :=
  (BitVec.ofNat 8 (x.val / 10) <<< 4) ||| BitVec.ofNat 8 (x.val % 10)

/-- `decimal(b)`, on every byte by the formula (R134, D21). No operation of the block uses it
(R138). -/
def decimal (b : Byte) : Nat :=
  10 * (b >>> 4).toNat + (b &&& 0x0F#8).toNat

/-- The time-source boundary (R139, R147): the answer as a `DateTime` (R12), or nothing where a
field is outside 0..99. -/
def admitTime (a : TimeAnswer) : Option DateTime :=
  if h : a.yy < 100 ∧ a.mo < 100 ∧ a.dd < 100 ∧ a.wd < 100 ∧ a.hh < 100 ∧ a.mi < 100 ∧ a.ss < 100 then
    some { yy := ⟨a.yy, h.1⟩, mo := ⟨a.mo, h.2.1⟩, dd := ⟨a.dd, h.2.2.1⟩, wd := ⟨a.wd, h.2.2.2.1⟩,
           hh := ⟨a.hh, h.2.2.2.2.1⟩, mi := ⟨a.mi, h.2.2.2.2.2.1⟩, ss := ⟨a.ss, h.2.2.2.2.2.2⟩ }
  else none

/-- The 56 response bits of 0x65, year first (30_encoding.md R73). -/
def dateTimeBits (t : DateTime) : BitVec 56 :=
  bcd t.yy ++ bcd t.mo ++ bcd t.dd ++ bcd t.wd ++ bcd t.hh ++ bcd t.mi ++ bcd t.ss

/-- The 24 response bits of 0x67, hour first (30_encoding.md R73). -/
def timeBits (t : DateTime) : BitVec 24 :=
  bcd t.hh ++ bcd t.mi ++ bcd t.ss

end Sys2Proof.Machine
end

