-- ==== Sys2Proof/Syntax.lean ====
section
/-! DEFINITION. The instructions: one constructor per row of spec/opcode_table.json (30_encoding.md
R83), and the two forms in which one reaches the block: a request of the host (R63) and a captured
command byte (R69). -/

namespace Sys2Proof

/-- One constructor per row of the opcode table, in its order. The first nine are bus requests
(40_gpio_bus.md), the others classes of command byte (42_rtc_commands.md). -/
inductive Instr where
  /-- `RD_DATA` (R87): read offset 0xC4. -/
  | rdData
  /-- `RD_DIR` (R88): read offset 0xC6. -/
  | rdDir
  /-- `RD_EN` (R89): read offset 0xC8. -/
  | rdEn
  /-- `RD_OTHER` (R90): read any other offset. -/
  | rdOther (addr : Addr)
  /-- `WR_DATA` (R91): write offset 0xC4. -/
  | wrData (value : HalfWord)
  /-- `WR_DIR` (R94): write offset 0xC6. -/
  | wrDir (value : HalfWord)
  /-- `WR_EN` (R95): write offset 0xC8. -/
  | wrEn (value : HalfWord)
  /-- `WR_OTHER` (R96): write any other offset. -/
  | wrOther (addr : Addr) (value : HalfWord)
  /-- `INIT` (R97). -/
  | init
  /-- `CMD_RESET` (R118): 0x60 and 0x61, told apart by bit 0, which R68 calls `rw`. -/
  | cmdReset (rw : Bit)
  /-- `CMD_WR_STATUS` (R119): 0x62. -/
  | cmdWrStatus
  /-- `CMD_RD_STATUS` (R120): 0x63. -/
  | cmdRdStatus
  /-- `CMD_WR_DATETIME` (R121): 0x64. -/
  | cmdWrDatetime
  /-- `CMD_RD_DATETIME` (R122): 0x65. -/
  | cmdRdDatetime
  /-- `CMD_WR_TIME` (R123): 0x66. -/
  | cmdWrTime
  /-- `CMD_RD_TIME` (R124): 0x67. -/
  | cmdRdTime
  /-- `CMD_NULL` (R125): 0x00. -/
  | cmdNull
  /-- `CMD_UNRECOGNISED` (R126, R127): 0x01..0x5F and 0x68..0xFF. -/
  | cmdUnrecognised (cmd : Byte)
deriving DecidableEq, Repr

/-- What the opcode table's match and mask apply to (R83): a request record of one of the three
shapes of R63, or a captured command byte. -/
inductive Encoded where
  | reqInit
  | reqRead (addr : Addr)
  | reqWrite (addr : Addr) (value : HalfWord)
  | cmdByte (cmd : Byte)
deriving DecidableEq, Repr

/-- The access widths that do not reach the block (20_memory.md R51). -/
inductive OtherWidth where
  | byte
  | word
deriving DecidableEq, Repr

/-- A request the host offers at the block's ports (00_scope.md R8): one of the three shapes of R63,
or an access of another width, which the model refuses (R51, log 12). -/
inductive Request where
  | init
  | read (addr : Addr)
  | write (addr : Addr) (value : HalfWord)
  | foreign (width : OtherWidth) (isWrite : Bool) (addr : Addr)
deriving DecidableEq, Repr

end Sys2Proof
end

