-- ==== Sys2Proof/Machine/State.lean ====
section
/-! DEFINITION. The state of the block (10_state.md R20, R44), the environment it is stepped in
(00_scope.md R8, 40_gpio_bus.md R85), the outcomes it can refuse with (60_exceptions.md R147), and
the state after reset (70_reset_and_hazards.md R157). -/

namespace Sys2Proof.Machine

/-- The GPIO register bank (10_state.md R23, R26, R28). -/
structure Gpio where
  /-- The current line state: bit 0 SCK, bit 1 SIO, bit 2 CS, bit 3 unused. -/
  data : Lines
  /-- 1 = the line is driven by the host, 0 = by the chip. -/
  direction : Lines
  /-- While 0, every read returns 0. -/
  readEnabled : Bit
deriving DecidableEq, Repr

/-- The RTC serial state machine (10_state.md R33-R37). -/
structure Rtc where
  /-- Bits queued to be read out, right-aligned. -/
  rbits : Shift
  /-- How many bits of `rbits` remain to be read. -/
  numRbits : Count
  /-- Bits written in over the wire, the last one at bit 0. -/
  wbits : Shift
  /-- How many bits have been written since the last clear, modulo 128. -/
  numWbits : Count
  /-- 0, or the command byte whose payload is awaited or that locked the RTC. -/
  state : Byte
deriving DecidableEq, Repr

/-- The phase view of `RTC.state` (10_state.md R40). -/
inductive Phase where
  | idle
  | awaiting (cmd : Byte) (length : Nat)
  | locked (cmd : Byte)
deriving DecidableEq, Repr

/-- What one step is given from outside (R85): a request of the host, and the time source's answer,
which the step consults only if it dispatches 0x65 or 0x67. -/
structure Input where
  request : Request
  time : TimeAnswer
deriving DecidableEq, Repr

/-- The state of one block (R62) and of its environment. The first three fields are the complete
state of R44; `mode` is configuration that no step writes (log 5); the last three are the ports of
R8 as plain data (log 3, log 4). -/
structure State where
  gpio : Gpio
  rtc : Rtc
  /-- The model-only mark of R159: false until the first `Init`. -/
  initialised : Bool
  /-- `UNKNOWN_CMD_MODE` (R11). -/
  mode : UnknownCmdMode
  /-- The inputs still to come, the next one first. -/
  pending : List Input
  /-- The `now` port: what the time source answers in the current step. -/
  now : TimeAnswer
  /-- The values the host's reads have returned so far, oldest first (R10). -/
  responses : List HalfWord
deriving DecidableEq, Repr

/-- The block has no fault: "The block raises no synchronous exception" (R140; R147, row `fault`).
No constructor, so no step can end in one. -/
inductive Fault where
deriving DecidableEq, Repr

/-- Why the model gives a step no meaning (60_exceptions.md R147). -/
inductive Refusal where
  /-- Raised by an arm of `exec` whose instruction has no meaning yet (there is none). Safe. -/
  | notModelled (mnemonic : String)
  /-- Raised by every request but `Init` before the first `Init` (R159). Safe. -/
  | notInitialised
  /-- Raised by the step for a byte or word access (R51). Safe. -/
  | accessWidth (width : OtherWidth)
  /-- Raised by the dispatch of 0x65 and 0x67 when the time source's answer is no `DateTime`
  (R139, R147). Safe. -/
  | timeOutOfRange
  /-- Raised by the step when the host has no request pending: the block never steps on its own
  (R9, log 11). Safe. -/
  | noRequest
deriving DecidableEq, Repr

/-- What a step, or a part of one, answers. -/
abbrev Result := Host.Outcome State Fault Refusal

/-- The GPIO registers after `Init` (R157). -/
def Gpio.reset : Gpio :=
  { data := 0#4, direction := 0#4, readEnabled := 0#1 }

/-- The RTC registers after `RTC_Reset` (R105, R157). -/
def Rtc.reset : Rtc :=
  { rbits := 0#64, numRbits := 0#7, wbits := 0#64, numWbits := 0#7, state := 0x00#8 }

/-- The block before the first `Init`. "the value of every register is unspecified" (R159), so the
registers are arguments (log 2). -/
def State.powerOn (gpio : Gpio) (rtc : Rtc) (mode : UnknownCmdMode) : State :=
  { gpio := gpio, rtc := rtc, initialised := false, mode := mode, pending := [],
    now := ⟨0, 0, 0, 0, 0, 0, 0⟩, responses := [] }

/-- The block right after reset, which is after `Init` (R157, log 1): every register 0, the mode at
its default `LOCKUP` (R11), no request pending and none answered. -/
def State.reset : State :=
  { gpio := Gpio.reset, rtc := Rtc.reset, initialised := true, mode := .lockup, pending := [],
    now := ⟨0, 0, 0, 0, 0, 0, 0⟩, responses := [] }

end Sys2Proof.Machine
end

