-- ==== Sys2Proof/Machine/Flags.lean ====
section
/-! DEFINITION. The block has no status flags (10_state.md R22). Its one flag-like quantity is the
RTC status byte that command 0x63 returns, a constant (R30). -/

namespace Sys2Proof.Machine

/-- The 24-hour status flag, bit 6 of the status byte: always 1 (30_encoding.md R74). -/
def status24Hour : Bit := 1#1

/-- `STATUS_READ_VALUE` of R11: the 24-hour flag set, bits 7 and 5..0 clear (R74). -/
def statusByte : Byte := 0#1 ++ status24Hour ++ 0#6

end Sys2Proof.Machine
end

