-- ==== Sys2Proof/Machine/Operands.lean ====
section
/-! DEFINITION. The operand forms: which bits of a written value each register takes (30_encoding.md
R65), how a read result is assembled (R66), and the lines of the data register (10_state.md R23). -/

namespace Sys2Proof.Machine

/-- The bits the data and direction registers take: `value[3:0]` (R65). -/
def lowLines (value : HalfWord) : Lines :=
  value.extractLsb' 0 4

/-- The bit the read-enable register takes: `value[0]` (R65). -/
def lowBit (value : HalfWord) : Bit :=
  value.extractLsb' 0 1

/-- A read result of a data or direction register: zero-extended to 16 bits (R66, D11). -/
def linesResult (v : Lines) : HalfWord :=
  v.setWidth 16

/-- A read result of the read-enable register: zero-extended to 16 bits (R66, D11). -/
def bitResult (v : Bit) : HalfWord :=
  v.setWidth 16

/-- Line SCK, bit 0 (R23). -/
def sck (v : Lines) : Bit :=
  v.extractLsb' 0 1

/-- Line SIO, bit 1 (R23). -/
def sio (v : Lines) : Bit :=
  v.extractLsb' 1 1

/-- Line CS, bit 2 (R23). -/
def cs (v : Lines) : Bit :=
  v.extractLsb' 2 1

/-- `v[SIO] <- b`: one bit written, the others left (00_scope.md R14). -/
def setSio (b : Bit) (v : Lines) : Lines :=
  v.extractLsb' 2 2 ++ b ++ v.extractLsb' 0 1

/-- The clock-edge detector (40_gpio_bus.md R92); "asserted" is bit value 1 (D6). -/
def risingEdge (old new : Lines) : Bool :=
  cs new == 1#1 && sck new == 1#1 && sck old == 0#1

end Sys2Proof.Machine
end

