-- ==== Sys2Proof/Machine/Ops.lean ====
section
/-! DEFINITION. The shared operations over the registers: the gates of a request, the window view of
the registers, and the updates of the RTC that capture, dispatch and the serial steps are made of.
The block takes no exception and returns from none (60_exceptions.md R140, R143, R144), and has no
memory of its own (20_memory.md R45), so there is no operation for either. -/

namespace Sys2Proof.Machine

/-- Only `Init` is admitted before the first `Init` (40_gpio_bus.md R85, R159). -/
def whenInitialised (s : State) (r : Result) : Result :=
  if s.initialised then r else .refused .notInitialised

/-- The read gate (R86): 0 while `GPIO.read_enabled` is 0. -/
def readGate (s : State) (v : HalfWord) : HalfWord :=
  if s.gpio.readEnabled = 0#1 then 0#16 else v

/-- `ReadHalfword(addr)` (R86): what a read of any offset returns in a state. -/
def readHalfword (s : State) (addr : Addr) : HalfWord :=
  readGate s
    (if addr = dataOffset then linesResult s.gpio.data
      else if addr = dirOffset then linesResult s.gpio.direction
      else if addr = enOffset then bitResult s.gpio.readEnabled
      else 0#16)

/-- `return v`: the host gets the value of its read (R8, R15). -/
def respond (v : HalfWord) (s : State) : State :=
  { s with responses := s.responses ++ [v] }

/-- `GPIO.data <- v`. -/
def setData (v : Lines) (s : State) : State :=
  { s with gpio := { s.gpio with data := v } }

/-- `GPIO.direction <- v`. -/
def setDirection (v : Lines) (s : State) : State :=
  { s with gpio := { s.gpio with direction := v } }

/-- `GPIO.read_enabled <- v`. -/
def setReadEnabled (v : Bit) (s : State) : State :=
  { s with gpio := { s.gpio with readEnabled := v } }

/-- All five RTC registers at once. -/
def setRtc (r : Rtc) (s : State) : State :=
  { s with rtc := r }

/-- `PayloadLength(state)` (41_rtc_serial.md R110): defined for the three write commands only. -/
def payloadLength (state : Byte) : Option Count :=
  if state = 0x62#8 then some 8#7
  else if state = 0x64#8 then some 56#7
  else if state = 0x66#8 then some 24#7
  else none

/-- The phase view of `RTC.state` (10_state.md R40). -/
def phase (state : Byte) : Phase :=
  if state = 0x00#8 then .idle
  else match payloadLength state with
    | some n => .awaiting state n.toNat
    | none => .locked state

/-- Capture of a completed command byte (41_rtc_serial.md R107): `state <- cmd`, and both shift
registers and both counts are cleared. -/
def captureCommand (cmd : Byte) : Rtc :=
  { rbits := 0#64, numRbits := 0#7, wbits := 0#64, numWbits := 0#7, state := cmd }

/-- `RTC.state <- 0x00`, the other registers kept (42_rtc_commands.md R118). -/
def returnToIdle (r : Rtc) : Rtc :=
  { r with state := 0x00#8 }

/-- A read command queues its response, right-aligned with zeros above (30_encoding.md R73), and
returns to idle. -/
def queueResponse (bits : Shift) (n : Count) (r : Rtc) : Rtc :=
  returnToIdle { r with rbits := bits, numRbits := n }

/-- The shift and the increment at the start of `RTC_WriteBit` (41_rtc_serial.md R106): bit 63 is
lost, the count is modulo 128. -/
def appendBit (b : Bit) (r : Rtc) : Rtc :=
  { r with wbits := (r.wbits <<< 1) ||| b.setWidth 64, numWbits := r.numWbits + 1#7 }

/-- The completion of a write payload (41_rtc_serial.md R108): the payload is discarded, both shift
registers and both counts are cleared, and `state` is 0. -/
def discardPayload (_r : Rtc) : Rtc :=
  { rbits := 0#64, numRbits := 0#7, wbits := 0#64, numWbits := 0#7, state := 0x00#8 }

/-- The bit `RTC_ReadBit` returns (41_rtc_serial.md R111): the one at the decremented count, or 0
when nothing is queued. -/
def outgoingBit (r : Rtc) : Bit :=
  if r.numRbits = 0#7 then 0#1 else r.rbits.extractLsb' (r.numRbits - 1#7).toNat 1

/-- What `RTC_ReadBit` leaves of the RTC (R111): the count decremented if it is not 0. -/
def afterReadBit (r : Rtc) : Rtc :=
  if r.numRbits = 0#7 then r else { r with numRbits := r.numRbits - 1#7 }

end Sys2Proof.Machine
end

