-- ==== Sys2Proof/Machine/Commands.lean ====
section
/-! DEFINITION. Family 3: the RTC commands (42_rtc_commands.md). Each meaning is capture of its byte
(41_rtc_serial.md R107) followed by its arm of `Dispatch` (R117); on a state that capture has
already left, which is the only state `Dispatch` is called in, capture changes nothing (log 9). -/

namespace Sys2Proof.Machine

/-- `t <- Time()` (20_memory.md R58): the draw of this step, refused where it is no `DateTime`
(43_bcd.md R139). -/
def withTime (s : State) (use : DateTime → State) : Result :=
  match admitTime s.now with
  | some t => .next (use t)
  | none => .refused .timeOutOfRange

/-- `CMD_RESET`, 0x60 and 0x61 (R118). -/
def execCmdReset (rw : Bit) (s : State) : Result :=
  .next (setRtc (returnToIdle (captureCommand (0b0110000#7 ++ rw))) s)

/-- `CMD_WR_STATUS`, 0x62 (R119): `state` stays 0x62, and 8 payload bits follow. -/
def execCmdWrStatus (s : State) : Result :=
  .next (setRtc (captureCommand 0x62#8) s)

/-- `CMD_RD_STATUS`, 0x63 (R120): queues the status byte. -/
def execCmdRdStatus (s : State) : Result :=
  .next (setRtc (queueResponse (statusByte.setWidth 64) 8#7 (captureCommand 0x63#8)) s)

/-- `CMD_WR_DATETIME`, 0x64 (R121): `state` stays 0x64, and 56 payload bits follow. -/
def execCmdWrDatetime (s : State) : Result :=
  .next (setRtc (captureCommand 0x64#8) s)

/-- `CMD_RD_DATETIME`, 0x65 (R122): samples the time and queues seven BCD bytes. -/
def execCmdRdDatetime (s : State) : Result :=
  withTime s fun t =>
    setRtc (queueResponse ((dateTimeBits t).setWidth 64) 56#7 (captureCommand 0x65#8)) s

/-- `CMD_WR_TIME`, 0x66 (R123): `state` stays 0x66, and 24 payload bits follow. -/
def execCmdWrTime (s : State) : Result :=
  .next (setRtc (captureCommand 0x66#8) s)

/-- `CMD_RD_TIME`, 0x67 (R124): samples the time and queues three BCD bytes. -/
def execCmdRdTime (s : State) : Result :=
  withTime s fun t =>
    setRtc (queueResponse ((timeBits t).setWidth 64) 24#7 (captureCommand 0x67#8)) s

/-- `CMD_NULL`, 0x00 (R125): no arm matches, and capture has left `state` 0, which is idle. -/
def execCmdNull (s : State) : Result :=
  .next (setRtc (captureCommand 0x00#8) s)

/-- `CMD_UNRECOGNISED`: in mode `LOCKUP` `state` keeps the byte (R126), in mode `IGNORE` it goes back
to 0 (R127). -/
def execCmdUnrecognised (cmd : Byte) (s : State) : Result :=
  match s.mode with
  | .lockup => .next (setRtc (captureCommand cmd) s)
  | .ignore => .next (setRtc (returnToIdle (captureCommand cmd)) s)

/-- `Dispatch(cmd)` of a completed byte (R117), arm by arm. -/
def dispatchCommand (cmd : Byte) (s : State) : Result :=
  if cmd = 0x60#8 then execCmdReset 0#1 s
  else if cmd = 0x61#8 then execCmdReset 1#1 s
  else if cmd = 0x62#8 then execCmdWrStatus s
  else if cmd = 0x63#8 then execCmdRdStatus s
  else if cmd = 0x64#8 then execCmdWrDatetime s
  else if cmd = 0x65#8 then execCmdRdDatetime s
  else if cmd = 0x66#8 then execCmdWrTime s
  else if cmd = 0x67#8 then execCmdRdTime s
  else if cmd = 0x00#8 then execCmdNull s
  else execCmdUnrecognised cmd s

end Sys2Proof.Machine
end

