-- ==== Sys2Proof/Machine/Serial.lean ====
section
/-! DEFINITION. Family 2: the RTC serial shift machine (41_rtc_serial.md). -/

namespace Sys2Proof.Machine

/-- `RTC_Reset()` (R105). -/
def rtcReset (s : State) : State :=
  setRtc { rbits := 0#64, numRbits := 0#7, wbits := 0#64, numWbits := 0#7, state := 0x00#8 } s

/-- The command-phase step (R107): at the eighth bit the low byte of `wbits` is captured and
dispatched; before that nothing else happens. -/
def commandPhaseStep (s : State) : Result :=
  if s.rtc.numWbits = 8#7 then dispatchCommand (s.rtc.wbits.extractLsb' 0 8) s
  else .next s

/-- The payload-phase step (R108): at the last bit of the payload it is discarded. -/
def payloadPhaseStep (length : Count) (s : State) : Result :=
  if s.rtc.numWbits = length then .next (setRtc (discardPayload s.rtc) s)
  else .next s

/-- The locked step (R109): nothing beyond the shift and the increment. -/
def lockedStep (s : State) : Result :=
  .next s

/-- `RTC_WriteBit(bit)` (R106): shift and increment, then the step of the present phase, which the
shift does not change. -/
def rtcWriteBit (b : Bit) (s : State) : Result :=
  let s' := setRtc (appendBit b s.rtc) s
  if s.rtc.state = 0x00#8 then commandPhaseStep s'
  else match payloadLength s.rtc.state with
    | some n => payloadPhaseStep n s'
    | none => lockedStep s'

/-- `RTC_ReadBit()` with its result written into `GPIO.data[SIO]` (R111; 40_gpio_bus.md R93). -/
def rtcReadBit (s : State) : State :=
  setData (setSio (outgoingBit s.rtc) s.gpio.data) (setRtc (afterReadBit s.rtc) s)

end Sys2Proof.Machine
end

