-- ==== Sys2Proof/Machine/Bus.lean ====
section
/-! DEFINITION. Family 1: the bus requests (40_gpio_bus.md). Every request but `Init` is refused
before the first `Init` (R85, R159). Writes do not depend on `read_enabled` (R98). -/

namespace Sys2Proof.Machine

/-- `RD_DATA` (R87). -/
def execRdData (s : State) : Result :=
  whenInitialised s (.next (respond (readGate s (linesResult s.gpio.data)) s))

/-- `RD_DIR` (R88). -/
def execRdDir (s : State) : Result :=
  whenInitialised s (.next (respond (readGate s (linesResult s.gpio.direction)) s))

/-- `RD_EN` (R89). -/
def execRdEn (s : State) : Result :=
  whenInitialised s (.next (respond (readGate s (bitResult s.gpio.readEnabled)) s))

/-- `RD_OTHER` (R90): 0 from every unmapped offset. -/
def execRdOther (_addr : Addr) (s : State) : Result :=
  whenInitialised s (.next (respond 0#16 s))

/-- The serial transfer (R93), with `GPIO.data` already stored: the direction bit of SIO says which
way the one bit goes. -/
def serialTransfer (s : State) : Result :=
  if sio s.gpio.direction = 1#1 then rtcWriteBit (sio s.gpio.data) s
  else .next (rtcReadBit s)

/-- `WriteData(value)` (R91): the previous value is captured, the new one stored, the edge tested. -/
def writeData (value : HalfWord) (s : State) : Result :=
  let s' := setData (lowLines value) s
  if risingEdge s.gpio.data (lowLines value) then serialTransfer s' else .next s'

/-- `WR_DATA` (R91). -/
def execWrData (value : HalfWord) (s : State) : Result :=
  whenInitialised s (writeData value s)

/-- `WR_DIR` (R94). -/
def execWrDir (value : HalfWord) (s : State) : Result :=
  whenInitialised s (.next (setDirection (lowLines value) s))

/-- `WR_EN` (R95). -/
def execWrEn (value : HalfWord) (s : State) : Result :=
  whenInitialised s (.next (setReadEnabled (lowBit value) s))

/-- `WR_OTHER` (R96): no effect. -/
def execWrOther (_addr : Addr) (_value : HalfWord) (s : State) : Result :=
  whenInitialised s (.next s)

/-- `INIT` (R97): admitted in every state. -/
def execInit (s : State) : Result :=
  .next { rtcReset (setReadEnabled 0#1 (setDirection 0#4 (setData 0#4 s))) with initialised := true }

end Sys2Proof.Machine
end

