-- ==== Sys2Proof/Machine/Dispatch.lean ====
section
/-! DEFINITION. One arm per constructor of Instr. -/

namespace Sys2Proof.Machine

def exec (i : Instr) (s : State) : Host.Outcome State Fault Refusal :=
  match i with
  | .rdData => Sys2Proof.Machine.execRdData s
  | .rdDir => Sys2Proof.Machine.execRdDir s
  | .rdEn => Sys2Proof.Machine.execRdEn s
  | .rdOther addr => Sys2Proof.Machine.execRdOther addr s
  | .wrData value => Sys2Proof.Machine.execWrData value s
  | .wrDir value => Sys2Proof.Machine.execWrDir value s
  | .wrEn value => Sys2Proof.Machine.execWrEn value s
  | .wrOther addr value => Sys2Proof.Machine.execWrOther addr value s
  | .init => Sys2Proof.Machine.execInit s
  | .cmdReset rw => Sys2Proof.Machine.execCmdReset rw s
  | .cmdWrStatus => Sys2Proof.Machine.execCmdWrStatus s
  | .cmdRdStatus => Sys2Proof.Machine.execCmdRdStatus s
  | .cmdWrDatetime => Sys2Proof.Machine.execCmdWrDatetime s
  | .cmdRdDatetime => Sys2Proof.Machine.execCmdRdDatetime s
  | .cmdWrTime => Sys2Proof.Machine.execCmdWrTime s
  | .cmdRdTime => Sys2Proof.Machine.execCmdRdTime s
  | .cmdNull => Sys2Proof.Machine.execCmdNull s
  | .cmdUnrecognised cmd => Sys2Proof.Machine.execCmdUnrecognised cmd s

end Sys2Proof.Machine
end

