-- ==== Sys2Proof/WellFormed.lean ====
section
/-! DEFINITION. Which instructions are well formed: the operands of the three fallback rows of the
opcode table must be values that no earlier row of their format matches (30_encoding.md R84). -/

namespace Sys2Proof

/-- An offset that selects no register (30_encoding.md R76). -/
def unmapped (addr : Addr) : Bool :=
  addr != dataOffset && addr != dirOffset && addr != enOffset

/-- The 247 unrecognised command bytes 0x01..0x5F and 0x68..0xFF (30_encoding.md R78). -/
def unrecognised (cmd : Byte) : Bool :=
  (0x01#8 ≤ cmd && cmd ≤ 0x5F#8) || 0x68#8 ≤ cmd

/-- The well-formedness check: `RD_OTHER` (R90) and `WR_OTHER` (R96) name an unmapped offset,
`CMD_UNRECOGNISED` (R126) an unrecognised byte. -/
def Instr.wf : Instr → Bool
  | .rdOther addr => unmapped addr
  | .wrOther addr _ => unmapped addr
  | .cmdUnrecognised cmd => unrecognised cmd
  | .rdData => true
  | .rdDir => true
  | .rdEn => true
  | .wrData _ => true
  | .wrDir _ => true
  | .wrEn _ => true
  | .init => true
  | .cmdReset _ => true
  | .cmdWrStatus => true
  | .cmdRdStatus => true
  | .cmdWrDatetime => true
  | .cmdRdDatetime => true
  | .cmdWrTime => true
  | .cmdRdTime => true
  | .cmdNull => true

end Sys2Proof
end

