-- ==== Sys2Proof/Decode.lean ====
section
/-! DEFINITION. The decoder of requests and command bytes (30_encoding.md R64, R69, R84), the byte
frames they are laid out in (log 6), the encoder, and the opcode table itself (R83). -/

namespace Sys2Proof

/-- Why a byte frame names no instruction. -/
inductive DecodeError where
  /-- No request shape and no command has a record of this many bytes (log 6). -/
  | noFormat (length : Nat)
deriving DecidableEq, Repr

/-- Decodes a read by exact comparison of the whole offset (R64). -/
def decodeRead (addr : Addr) : Instr :=
  if addr = dataOffset then .rdData
  else if addr = dirOffset then .rdDir
  else if addr = enOffset then .rdEn
  else .rdOther addr

/-- Decodes a write by exact comparison of the whole offset (R64). -/
def decodeWrite (addr : Addr) (value : HalfWord) : Instr :=
  if addr = dataOffset then .wrData value
  else if addr = dirOffset then .wrDir value
  else if addr = enOffset then .wrEn value
  else .wrOther addr value

/-- Decodes a captured command byte as a whole, first match in the order of R69. -/
def decodeCommand (cmd : Byte) : Instr :=
  if cmd = 0x60#8 ∨ cmd = 0x61#8 then .cmdReset (cmd.extractLsb' 0 1)
  else if cmd = 0x62#8 then .cmdWrStatus
  else if cmd = 0x63#8 then .cmdRdStatus
  else if cmd = 0x64#8 then .cmdWrDatetime
  else if cmd = 0x65#8 then .cmdRdDatetime
  else if cmd = 0x66#8 then .cmdWrTime
  else if cmd = 0x67#8 then .cmdRdTime
  else if cmd = 0x00#8 then .cmdNull
  else .cmdUnrecognised cmd

/-- The instruction an encoded request or command byte stands for: total, since every offset and
every byte has a row (R83, R104). -/
def decode : Encoded → Instr
  | .reqInit => .init
  | .reqRead addr => decodeRead addr
  | .reqWrite addr value => decodeWrite addr value
  | .cmdByte cmd => decodeCommand cmd

/-- A request at the block's ports as an instruction; an access of another width is rejected by
that width (20_memory.md R51). -/
def decodeRequest : Request → Except OtherWidth Instr
  | .init => .ok (decode .reqInit)
  | .read addr => .ok (decode (.reqRead addr))
  | .write addr value => .ok (decode (.reqWrite addr value))
  | .foreign width _ _ => .error width

/-- The byte frame of a record: its fields in the order of R63, each low byte first, which is how
the opcode table numbers a row's bits. DESIGN CHOICE (log 6): R63 gives no bit-level encoding; the
four formats have four lengths (0, 1, 4 and 6 bytes), so the length tells the format. -/
def Encoded.bytes : Encoded → List Byte
  | .reqInit => []
  | .cmdByte cmd => [cmd]
  | .reqRead addr =>
    [addr.extractLsb' 0 8, addr.extractLsb' 8 8, addr.extractLsb' 16 8, addr.extractLsb' 24 8]
  | .reqWrite addr value =>
    [addr.extractLsb' 0 8, addr.extractLsb' 8 8, addr.extractLsb' 16 8, addr.extractLsb' 24 8,
      value.extractLsb' 0 8, value.extractLsb' 8 8]

/-- Reads a byte frame; a length that no format has is rejected by name. DESIGN CHOICE (log 6). -/
def parseFrame : List Byte → Except DecodeError Encoded
  | [] => .ok .reqInit
  | [c] => .ok (.cmdByte c)
  | [a0, a1, a2, a3] => .ok (.reqRead (a3 ++ a2 ++ a1 ++ a0))
  | [a0, a1, a2, a3, v0, v1] => .ok (.reqWrite (a3 ++ a2 ++ a1 ++ a0) (v1 ++ v0))
  | bs => .error (.noFormat bs.length)

/-- The decoder on bytes, total. -/
def decodeBytes (bs : List Byte) : Except DecodeError Instr :=
  match parseFrame bs with
  | .ok e => .ok (decode e)
  | .error x => .error x

/-- The encoder, from the same tables (R64, R69). -/
def encode : Instr → Encoded
  | .rdData => .reqRead dataOffset
  | .rdDir => .reqRead dirOffset
  | .rdEn => .reqRead enOffset
  | .rdOther addr => .reqRead addr
  | .wrData value => .reqWrite dataOffset value
  | .wrDir value => .reqWrite dirOffset value
  | .wrEn value => .reqWrite enOffset value
  | .wrOther addr value => .reqWrite addr value
  | .init => .reqInit
  | .cmdReset rw => .cmdByte (0b0110000#7 ++ rw)
  | .cmdWrStatus => .cmdByte 0x62#8
  | .cmdRdStatus => .cmdByte 0x63#8
  | .cmdWrDatetime => .cmdByte 0x64#8
  | .cmdRdDatetime => .cmdByte 0x65#8
  | .cmdWrTime => .cmdByte 0x66#8
  | .cmdRdTime => .cmdByte 0x67#8
  | .cmdNull => .cmdByte 0x00#8
  | .cmdUnrecognised cmd => .cmdByte cmd

/-- The bytes of an instruction. -/
def encodeBytes (i : Instr) : List Byte :=
  (encode i).bytes

/-- The `n` low bytes of a number, lowest first. -/
def lowBytes : Nat → Nat → List Byte
  | 0, _ => []
  | n + 1, w => BitVec.ofNat 8 w :: lowBytes n (w / 256)

/-- The record whose bits are `w`, numbered as the opcode table numbers them (log 6): 8 bits are a
command byte, 32 bits the `addr` of a read, 48 bits a write's `addr` (low) and `value` (high). -/
def parseTableWord (nbits w : Nat) : Except DecodeError Encoded :=
  parseFrame (lowBytes (nbits / 8) w)

/-- The instruction the decoder reads from an opcode-table word. The table gives `RD_x` and `WR_x`
the same 32 bits and tells them apart by its `format` column alone, so 32 bits are a read (log 6). -/
def decodeTableWord (nbits w : Nat) : Option Instr :=
  match decodeBytes (lowBytes (nbits / 8) w) with
  | .ok i => some i
  | .error _ => none

/-- The `format` column of the opcode table (R83). -/
inductive Format where
  | reqRead
  | reqWrite
  | reqInit
  | cmdByte
deriving DecidableEq, Repr

/-- A row of the opcode table: `mtch` and `mask` apply to the offset or the command byte. -/
structure OpcodeRow where
  mnemonic : String
  format : Format
  mtch : BitVec 32
  mask : BitVec 32
deriving DecidableEq, Repr

/-- The rows of the bus requests. -/
def busRows : List OpcodeRow :=
  [⟨"RD_DATA", .reqRead, 0xC4, 0xFFFFFFFF⟩, ⟨"RD_DIR", .reqRead, 0xC6, 0xFFFFFFFF⟩,
    ⟨"RD_EN", .reqRead, 0xC8, 0xFFFFFFFF⟩, ⟨"RD_OTHER", .reqRead, 0, 0⟩,
    ⟨"WR_DATA", .reqWrite, 0xC4, 0xFFFFFFFF⟩, ⟨"WR_DIR", .reqWrite, 0xC6, 0xFFFFFFFF⟩,
    ⟨"WR_EN", .reqWrite, 0xC8, 0xFFFFFFFF⟩, ⟨"WR_OTHER", .reqWrite, 0, 0⟩,
    ⟨"INIT", .reqInit, 0, 0⟩]

/-- The rows of the command bytes. -/
def commandRows : List OpcodeRow :=
  [⟨"CMD_RESET", .cmdByte, 0x60, 0xFE⟩, ⟨"CMD_WR_STATUS", .cmdByte, 0x62, 0xFF⟩,
    ⟨"CMD_RD_STATUS", .cmdByte, 0x63, 0xFF⟩, ⟨"CMD_WR_DATETIME", .cmdByte, 0x64, 0xFF⟩,
    ⟨"CMD_RD_DATETIME", .cmdByte, 0x65, 0xFF⟩, ⟨"CMD_WR_TIME", .cmdByte, 0x66, 0xFF⟩,
    ⟨"CMD_RD_TIME", .cmdByte, 0x67, 0xFF⟩, ⟨"CMD_NULL", .cmdByte, 0x00, 0xFF⟩,
    ⟨"CMD_UNRECOGNISED", .cmdByte, 0x00, 0x00⟩]

/-- spec/opcode_table.json, in its order. -/
def opcodeTable : List OpcodeRow :=
  busRows ++ commandRows

/-- The format of an encoded request or command byte. -/
def Encoded.format : Encoded → Format
  | .reqInit => .reqInit
  | .reqRead _ => .reqRead
  | .reqWrite _ _ => .reqWrite
  | .cmdByte _ => .cmdByte

/-- The bits a row's match and mask apply to (R83): the offset, or the command byte. -/
def Encoded.key : Encoded → BitVec 32
  | .reqInit => 0
  | .reqRead addr => addr
  | .reqWrite addr _ => addr
  | .cmdByte cmd => cmd.setWidth 32

/-- Whether a row matches (R83). -/
def OpcodeRow.matches (row : OpcodeRow) (e : Encoded) : Bool :=
  row.format == e.format && e.key &&& row.mask == row.mtch

/-- "Within one format, rows are tried in table order and the first match wins" (R84). -/
def selectRow (e : Encoded) : Option OpcodeRow :=
  opcodeTable.find? (·.matches e)

/-- The mnemonic of an instruction, as the opcode table spells it. -/
def Instr.mnemonic : Instr → String
  | .rdData => "RD_DATA"
  | .rdDir => "RD_DIR"
  | .rdEn => "RD_EN"
  | .rdOther _ => "RD_OTHER"
  | .wrData _ => "WR_DATA"
  | .wrDir _ => "WR_DIR"
  | .wrEn _ => "WR_EN"
  | .wrOther _ _ => "WR_OTHER"
  | .init => "INIT"
  | .cmdReset _ => "CMD_RESET"
  | .cmdWrStatus => "CMD_WR_STATUS"
  | .cmdRdStatus => "CMD_RD_STATUS"
  | .cmdWrDatetime => "CMD_WR_DATETIME"
  | .cmdRdDatetime => "CMD_RD_DATETIME"
  | .cmdWrTime => "CMD_WR_TIME"
  | .cmdRdTime => "CMD_RD_TIME"
  | .cmdNull => "CMD_NULL"
  | .cmdUnrecognised _ => "CMD_UNRECOGNISED"

end Sys2Proof
end

