-- ==== Sys2Proof/Machine/Fetch.lean ====
section
/-! DEFINITION. How the block comes by its next instruction: it takes the host's next request (R9,
R85), and a command byte is completed by the data write that clocks its last bit in (41_rtc_serial.md
R107). -/

namespace Sys2Proof.Machine

/-- What taking the next input finds. -/
inductive Fetched where
  /-- A request that stands for an instruction, and the state it runs in: the request taken from
  `pending`, its time answer at the `now` port. -/
  | ready (i : Instr) (s : State)
  /-- A byte or word access (20_memory.md R51). -/
  | badWidth (width : OtherWidth)
  /-- No request is pending. -/
  | idle
deriving DecidableEq, Repr

/-- Takes the next input. -/
def fetch (s : State) : Fetched :=
  match s.pending with
  | [] => .idle
  | input :: rest =>
    match decodeRequest input.request with
    | .ok i => .ready i { s with pending := rest, now := input.time }
    | .error width => .badWidth width

/-- Puts a request first in the queue; its time answer is the one the `now` port holds. -/
def placeRequest (r : Request) (s : State) : State :=
  { s with pending := ⟨r, s.now⟩ :: s.pending }

/-- Places a command byte where the next step captures it (log 7): the RTC idle with the seven upper
bits of the byte shifted in, SCK low and SIO host-driven, and next the data write with CS and SCK
high that sends its last bit. -/
def placeCommand (cmd : Byte) (s : State) : State :=
  placeRequest (.write dataOffset (0x0005#16 ||| ((cmd.extractLsb' 0 1).setWidth 16 <<< 1)))
    (setData (s.gpio.data &&& 0b1110#4)
      (setDirection (s.gpio.direction ||| 0b0010#4)
        (setRtc { s.rtc with wbits := (cmd >>> 1).setWidth 64, numWbits := 7#7, state := 0x00#8 } s)))

/-- Places an encoded request or command byte where the next step finds it. -/
def place (e : Encoded) (s : State) : State :=
  match e with
  | .reqInit => placeRequest .init s
  | .reqRead addr => placeRequest (.read addr) s
  | .reqWrite addr value => placeRequest (.write addr value) s
  | .cmdByte cmd => placeCommand cmd s

/-- Places an opcode-table word; a word of no format places nothing. -/
def placeTableWord (nbits w : Nat) (s : State) : State :=
  match parseTableWord nbits w with
  | .ok e => place e s
  | .error _ => s

end Sys2Proof.Machine
end

