-- ==== Sys2Proof/Machine/Step.lean ====
section
/-! DEFINITION. The step function (40_gpio_bus.md R85): one request, handled to completion (20_memory.md
R52). -/

namespace Sys2Proof.Machine

/-- One step: the host's next request, with the time draw that comes with it. -/
def step (s : State) : Host.Outcome State Fault Refusal :=
  match fetch s with
  | .ready i s' => exec i s'
  | .badWidth width => .refused (.accessWidth width)
  | .idle => .refused .noRequest

/-- The state with an opcode-table word placed so that the next step runs it (log 7). -/
def State.withFetchWord (s : State) (nbits w : Nat) : State :=
  placeTableWord nbits w s

end Sys2Proof.Machine
end

