-- ==== Sys2Proof/Safety.lean ====
section
/-! DEFINITION. What a safe run is: the invariants of the states reachable from power-on (10_state.md
R41, R42), what the host cannot observe (R39), and the run functions the claims are stated with. -/

namespace Sys2Proof.Machine

/-- The RTC is locked (10_state.md R40): `state` is not 0 and has no payload length. -/
def Locked (r : Rtc) : Prop :=
  r.state ≠ 0x00#8 ∧ payloadLength r.state = none

/-- The counter bounds of R42, items 1 to 5. -/
def PhaseBounds (r : Rtc) : Prop :=
  match phase r.state with
  | .idle => r.numWbits.toNat ≤ 7 ∧ r.numRbits.toNat ≤ 56
  | .awaiting _ length => r.numWbits.toNat < length ∧ r.numRbits = 0#7
  | .locked _ => r.numRbits = 0#7

/-- The values `RTC.state` can hold between requests (R41). -/
def LegalState (mode : UnknownCmdMode) (state : Byte) : Prop :=
  (state ≠ 0x60#8 ∧ state ≠ 0x61#8 ∧ state ≠ 0x63#8 ∧ state ≠ 0x65#8 ∧ state ≠ 0x67#8) ∧
    (mode = .ignore → state = 0x00#8 ∨ state = 0x62#8 ∨ state = 0x64#8 ∨ state = 0x66#8)

/-- The invariant of every state between requests: once `Init` has run, R41 and R42 hold. Before it
nothing is known of the registers (R159). -/
def Inv (s : State) : Prop :=
  s.initialised = true → PhaseBounds s.rtc ∧ LegalState s.mode s.rtc.state

/-- The states a run can reach: a block that no `Init` has reached yet, in any state; what a step
answers; and the same block with other requests of the host waiting. -/
inductive Reachable : State → Prop where
  | powerOn (s : State) (h : s.initialised = false) : Reachable s
  | step (s t : State) (h : Reachable s) (hs : step s = .next t) : Reachable t
  | request (s : State) (inputs : List Input) (h : Reachable s) : Reachable { s with pending := inputs }

/-- Two states that differ at most in what R39 calls unobservable: the bits of `rbits` at positions
`num_rbits` and above, and `wbits` and `num_wbits` in lockup. -/
def SameObservable (s t : State) : Prop :=
  s.gpio = t.gpio ∧ s.initialised = t.initialised ∧ s.mode = t.mode ∧ s.pending = t.pending ∧
    s.now = t.now ∧ s.responses = t.responses ∧ s.rtc.state = t.rtc.state ∧
    s.rtc.numRbits = t.rtc.numRbits ∧
    (∀ k < s.rtc.numRbits.toNat, s.rtc.rbits.getLsbD k = t.rtc.rbits.getLsbD k) ∧
    (¬ Locked s.rtc → s.rtc.wbits = t.rtc.wbits ∧ s.rtc.numWbits = t.rtc.numWbits)

/-- The assumption on the time source (00_scope.md R12, R18): every answer still to come is a `DateTime`
that meets the parameter `TIME_VALID` (R11), the predicate of D14 where none is given. -/
def TimeSourceMeets (s : State) (timeValid : TimeValid := Config.timeValidDefault) : Prop :=
  ∀ input ∈ s.pending, ∃ d, admitTime input.time = some d ∧ timeValid d = true

/-- A data write of `value` is a rising edge with CS asserted (40_gpio_bus.md R92), said bit by bit:
CS and SCK are 1 in the new value, SCK was 0 in the old one. -/
def ClocksABit (s : State) (value : HalfWord) : Prop :=
  value.getLsbD 2 = true ∧ value.getLsbD 0 = true ∧ s.gpio.data.getLsbD 0 = false

/-- The state in which a command's dispatch runs (41_rtc_serial.md R107): the byte captured as the
state, both shift registers and both counts clear. -/
def captured (cmd : Byte) (s : State) : State :=
  { s with rtc := { rbits := 0#64, numRbits := 0#7, wbits := 0#64, numWbits := 0#7, state := cmd } }

/-- A change made to the next state, a refusal kept. -/
def mapNext (f : State → State) : Result → Result
  | .next t => .next (f t)
  | .fault x => .fault x
  | .refused x => .refused x

/-- `k` steps, stopping at the first that is refused. -/
def runSteps : Nat → State → Result
  | 0, s => .next s
  | k + 1, s =>
    match step s with
    | .next t => runSteps k t
    | .fault f => .fault f
    | .refused r => .refused r

/-- One `RTC_WriteBit` after another, in the order of the list. -/
def writeBits : List Bit → State → Result
  | [], s => .next s
  | b :: bs, s =>
    match rtcWriteBit b s with
    | .next t => writeBits bs t
    | .fault f => .fault f
    | .refused r => .refused r

/-- The bits that `k` calls of `RTC_ReadBit` return, in order. -/
def readBits : Nat → State → List Bit
  | 0, _ => []
  | k + 1, s => outgoingBit s.rtc :: readBits k (rtcReadBit s)

/-- The bits of a byte, most significant first (20_memory.md R49). -/
def msbFirst (v : Byte) : List Bit :=
  [v.extractLsb' 7 1, v.extractLsb' 6 1, v.extractLsb' 5 1, v.extractLsb' 4 1,
    v.extractLsb' 3 1, v.extractLsb' 2 1, v.extractLsb' 1 1, v.extractLsb' 0 1]

/-- The value of the data write that clocks a bit in, with CS and SCK high (30_encoding.md R82). -/
def highWrite (b : Bit) : HalfWord :=
  0x0005#16 ||| (b.setWidth 16 <<< 1)

/-- The value of the data write before it, with CS high and SCK low (R82). -/
def lowWrite (b : Bit) : HalfWord :=
  0x0004#16 ||| (b.setWidth 16 <<< 1)

/-- The macro `SEND_BIT b` (R82). -/
def sendBit (b : Bit) : List Request :=
  [.write dataOffset (lowWrite b), .write dataOffset (highWrite b)]

/-- The macro `RECV_BIT` (R82). -/
def recvBit : List Request :=
  [.write dataOffset (lowWrite 0#1), .write dataOffset (highWrite 0#1), .read dataOffset]

/-- The macro `SEND_BYTE v` (R82). -/
def sendByte (v : Byte) : List Request :=
  (msbFirst v).flatMap sendBit

/-- The requests as inputs, every one with the same time answer. -/
def inputsAt (time : TimeAnswer) (rs : List Request) : List Input :=
  rs.map fun r => ⟨r, time⟩

end Sys2Proof.Machine
end

