-- ==== Sys2Proof/Certificates/Slice0/Obligations.lean ====
section
/-! DEFINITION. The statements for the provers. Each docstring names the rule it formalises, or says
that it is derived and from which sections. -/

open Sys2Proof Sys2Proof.Machine

/-- Derived (40_gpio_bus.md section 1): a step takes the next request, puts the time answer that comes
with it at the `now` port, and runs the instruction the request decodes to. -/
def Obligations.StepRunsDecodedRequest : Prop :=
  ∀ (s : State) (input : Input) (rest : List Input) (i : Instr),
    s.pending = input :: rest → decodeRequest input.request = .ok i →
      step s = exec i { s with pending := rest, now := input.time }

/-- R147: the outcome kinds. No step faults; another access width is refused; before the first `Init`
every half-word request but `Init` is refused; an admitted request has a next state, or samples a time
answer that is no `DateTime` and is refused; and a dispatch that samples such an answer is refused. -/
def Obligations.OutcomeKinds : Prop :=
  ∀ s : State,
    (∀ f, step s ≠ .fault f) ∧
    (admitTime s.now = none →
      exec .cmdRdDatetime s = .refused .timeOutOfRange ∧ exec .cmdRdTime s = .refused .timeOutOfRange) ∧
    ∀ (input : Input) (rest : List Input), s.pending = input :: rest →
      (∀ width isWrite addr, input.request = .foreign width isWrite addr →
        step s = .refused (.accessWidth width)) ∧
      (∀ i, decodeRequest input.request = .ok i → i ≠ .init → s.initialised = false →
        step s = .refused .notInitialised) ∧
      (∀ i, decodeRequest input.request = .ok i → (i = .init ∨ s.initialised = true) →
        (∃ t, step s = .next t) ∨
          (step s = .refused .timeOutOfRange ∧ admitTime input.time = none))

/-- R87, R88, R89 and R90: what each read returns, and that it changes nothing else. -/
def Obligations.ReadsReturnTheirRegister : Prop :=
  ∀ s : State, s.initialised = true →
    exec .rdData s = .next { s with responses := s.responses ++
      [if s.gpio.readEnabled = 0#1 then 0#16 else s.gpio.data.setWidth 16] } ∧
    exec .rdDir s = .next { s with responses := s.responses ++
      [if s.gpio.readEnabled = 0#1 then 0#16 else s.gpio.direction.setWidth 16] } ∧
    exec .rdEn s = .next { s with responses := s.responses ++ [s.gpio.readEnabled.setWidth 16] } ∧
    ∀ addr, addr ≠ 0xC4#32 → addr ≠ 0xC6#32 → addr ≠ 0xC8#32 →
      exec (.rdOther addr) s = .next { s with responses := s.responses ++ [0#16] }

/-- Derived (20_memory.md sections 1 and 3): a read of any offset whatever answers the window's value
at that offset, and reads are idempotent. -/
def Obligations.EveryOffsetReadsItsWindowValue : Prop :=
  ∀ (s : State) (addr : Addr), s.initialised = true →
    ∃ t, exec (decodeRead addr) s = .next t ∧
      t = { s with responses := s.responses ++ [readHalfword s addr] } ∧
      exec (decodeRead addr) t =
        .next { s with responses := s.responses ++ [readHalfword s addr, readHalfword s addr] }

/-- R94: a direction write stores `value[3:0]` and does nothing else. -/
def Obligations.DirectionWriteStores : Prop :=
  ∀ (s : State) (value : HalfWord), s.initialised = true →
    exec (.wrDir value) s =
      .next { s with gpio := { s.gpio with direction := value.extractLsb' 0 4 } }

/-- R95: an enable write stores `value[0]` and does nothing else. -/
def Obligations.EnableWriteStores : Prop :=
  ∀ (s : State) (value : HalfWord), s.initialised = true →
    exec (.wrEn value) s =
      .next { s with gpio := { s.gpio with readEnabled := value.extractLsb' 0 1 } }

/-- R96: a write to any other offset has no effect. -/
def Obligations.UnmappedWriteHasNoEffect : Prop :=
  ∀ (s : State) (addr : Addr) (value : HalfWord), s.initialised = true →
    addr ≠ 0xC4#32 → addr ≠ 0xC6#32 → addr ≠ 0xC8#32 →
      decodeRequest (.write addr value) = .ok (.wrOther addr value) ∧
        exec (.wrOther addr value) s = .next s

/-- R97 and R157: `Init` in any state leaves every register 0 and the mark set; a second `Init` gives
the same state. -/
def Obligations.InitZeroesEveryRegister : Prop :=
  ∀ s : State, ∃ t, exec .init s = .next t ∧
    t = { s with
      gpio := { data := 0#4, direction := 0#4, readEnabled := 0#1 }
      rtc := { rbits := 0#64, numRbits := 0#7, wbits := 0#64, numWbits := 0#7, state := 0x00#8 }
      initialised := true } ∧
    exec .init t = .next t

/-- R100 and R101: a data write that is no rising edge with CS asserted changes nothing but
`GPIO.data`, all four bits of which it stores whatever the direction. -/
def Obligations.DataWriteWithoutEdgeOnlyStores : Prop :=
  ∀ (s : State) (value : HalfWord), s.initialised = true → ¬ ClocksABit s value →
    exec (.wrData value) s =
      .next { s with gpio := { s.gpio with data := value.extractLsb' 0 4 } }

/-- R99: of consecutive data writes with SCK = 1 at most the first moves a bit, and only if SCK was 0
before it: the RTC after them is the RTC after the first, and the RTC before it if SCK was 1. -/
def Obligations.HeldClockMovesNoFurtherBit : Prop :=
  ∀ (s : State) (first : HalfWord) (others : List HalfWord) (time : TimeAnswer) (rest : List Input),
    s.initialised = true → first.getLsbD 0 = true → (∀ v ∈ others, v.getLsbD 0 = true) →
    s.pending = inputsAt time ((first :: others).map (Request.write dataOffset)) ++ rest →
    (∀ t, runSteps 1 s = .next t → ∃ u, runSteps (others.length + 1) s = .next u ∧ u.rtc = t.rtc) ∧
    (s.gpio.data.getLsbD 0 = true → ∃ u, runSteps (others.length + 1) s = .next u ∧ u.rtc = s.rtc)

/-- Derived (40_gpio_bus.md section 3): a rising edge with SIO host-driven stores the value and sends
bit SIO of that value to the RTC. -/
def Obligations.EdgeSendsTheWrittenBit : Prop :=
  ∀ (s : State) (value : HalfWord), s.initialised = true → ClocksABit s value →
    s.gpio.direction.getLsbD 1 = true →
      exec (.wrData value) s =
        rtcWriteBit (value.extractLsb' 1 1)
          { s with gpio := { s.gpio with data := value.extractLsb' 0 4 } }

/-- Derived (40_gpio_bus.md section 3, 41_rtc_serial.md R111): a rising edge with SIO chip-driven
stores the value, then overwrites bit SIO with the RTC's next bit; the count goes down by one if it is
not 0, and nothing else changes. -/
def Obligations.EdgeFetchesTheNextBit : Prop :=
  ∀ (s : State) (value : HalfWord), s.initialised = true → ClocksABit s value →
    s.gpio.direction.getLsbD 1 = false →
      exec (.wrData value) s =
        .next { s with
          gpio := { s.gpio with
            data := value.extractLsb' 2 2 ++
              (if s.rtc.numRbits = 0#7 then 0#1
                else BitVec.ofBool (s.rtc.rbits.getLsbD (s.rtc.numRbits.toNat - 1))) ++ 1#1 }
          rtc := { s.rtc with
            numRbits := if s.rtc.numRbits = 0#7 then 0#7 else s.rtc.numRbits - 1#7 } }

/-- Derived (40_gpio_bus.md section 3, 43_bcd.md R139): a data write completes in every initialised
state whose time answer is a `DateTime`; data bits 0, 2 and 3 are the written ones, and the direction,
the enable, the mark, the mode and the ports are unchanged. -/
def Obligations.DataWriteCompletesAndFrames : Prop :=
  ∀ (s : State) (value : HalfWord), s.initialised = true → (admitTime s.now).isSome = true →
    ∃ (t : State) (b : Bit), exec (.wrData value) s = .next t ∧
      t = { s with
        gpio := { s.gpio with data := value.extractLsb' 2 2 ++ b ++ value.extractLsb' 0 1 }
        rtc := t.rtc } ∧
      (s.gpio.direction.getLsbD 1 = true → b = value.extractLsb' 1 1)

/-- Derived (40_gpio_bus.md sections 2 and 3): a request that stores to no register leaves every
offset reading as before; a direction or data write leaves every offset but its own; an enable write
that disables reads makes every offset read 0, and one that keeps reads enabled leaves every offset. -/
def Obligations.OtherOffsetsReadAsBefore : Prop :=
  ∀ (s t : State) (addr addr' : Addr) (value : HalfWord),
    (exec (decodeRead addr') s = .next t → readHalfword t addr = readHalfword s addr) ∧
    (unmapped addr' = true → exec (.wrOther addr' value) s = .next t →
      readHalfword t addr = readHalfword s addr) ∧
    (exec (.wrDir value) s = .next t → addr ≠ dirOffset → readHalfword t addr = readHalfword s addr) ∧
    (exec (.wrData value) s = .next t → addr ≠ dataOffset → readHalfword t addr = readHalfword s addr) ∧
    (exec (.wrEn value) s = .next t →
      (value.getLsbD 0 = false → readHalfword t addr = 0#16) ∧
      (value.getLsbD 0 = true → s.gpio.readEnabled = 1#1 → readHalfword t addr = readHalfword s addr))

/-- R98: no write depends on `read_enabled`: with another enable it does the same, and leaves that
enable. While it is 0 no read shows a register. -/
def Obligations.WritesIgnoreTheReadEnable : Prop :=
  ∀ (s : State) (e : Bit) (addr : Addr) (value : HalfWord),
    exec (.wrData value) (setReadEnabled e s) = mapNext (setReadEnabled e) (exec (.wrData value) s) ∧
    exec (.wrDir value) (setReadEnabled e s) = mapNext (setReadEnabled e) (exec (.wrDir value) s) ∧
    (unmapped addr = true → exec (.wrOther addr value) (setReadEnabled e s) =
      mapNext (setReadEnabled e) (exec (.wrOther addr value) s)) ∧
    exec (.wrEn value) (setReadEnabled e s) = exec (.wrEn value) s ∧
    (s.initialised = true → s.gpio.readEnabled = 0#1 →
      exec (decodeRead addr) s = .next { s with responses := s.responses ++ [0#16] })

/-- R27: only bit SIO of `GPIO.direction` affects the block. With other direction bits besides SIO a
data write, an enable write, an unmapped write and a read of every offset but 0xC6 do the same, and
leave those bits. -/
def Obligations.OnlySioDirectionActs : Prop :=
  ∀ (s : State) (d : Lines) (addr : Addr) (value : HalfWord),
    d.getLsbD 1 = s.gpio.direction.getLsbD 1 →
    exec (.wrData value) (setDirection d s) = mapNext (setDirection d) (exec (.wrData value) s) ∧
    exec (.wrEn value) (setDirection d s) = mapNext (setDirection d) (exec (.wrEn value) s) ∧
    (unmapped addr = true → exec (.wrOther addr value) (setDirection d s) =
      mapNext (setDirection d) (exec (.wrOther addr value) s)) ∧
    (addr ≠ 0xC6#32 → exec (decodeRead addr) (setDirection d s) =
      mapNext (setDirection d) (exec (decodeRead addr) s)) ∧
    exec (.wrDir value) (setDirection d s) = exec (.wrDir value) s

/-- R107: in the command phase a bit is appended and counted, and nothing else happens until the bit
that makes the count 8; that bit captures the low byte of the shifted `wbits` as the state, clears both
shift registers and both counts, and runs the command of that byte. -/
def Obligations.CommandPhaseRunsTheEighthBit : Prop :=
  ∀ (s : State) (b : Bit), s.rtc.state = 0x00#8 →
    (s.rtc.numWbits + 1#7 ≠ 8#7 →
      rtcWriteBit b s = .next { s with rtc := { s.rtc with
        wbits := s.rtc.wbits.extractLsb' 0 63 ++ b, numWbits := s.rtc.numWbits + 1#7 } }) ∧
    (s.rtc.numWbits + 1#7 = 8#7 →
      rtcWriteBit b s = exec (decodeCommand (s.rtc.wbits.extractLsb' 0 7 ++ b))
        (captured (s.rtc.wbits.extractLsb' 0 7 ++ b) s))

/-- R108: in the payload phase of each write command a bit is appended and counted, and the bit that
makes the count the payload's length clears the five RTC registers. -/
def Obligations.PayloadPhaseDiscardsAtItsLength : Prop :=
  ∀ (s : State) (b : Bit) (length : Count),
    (s.rtc.state = 0x62#8 ∧ length = 8#7) ∨ (s.rtc.state = 0x64#8 ∧ length = 56#7) ∨
        (s.rtc.state = 0x66#8 ∧ length = 24#7) →
      rtcWriteBit b s = .next { s with rtc :=
        if s.rtc.numWbits + 1#7 = length then
          { rbits := 0#64, numRbits := 0#7, wbits := 0#64, numWbits := 0#7, state := 0x00#8 }
        else
          { s.rtc with wbits := s.rtc.wbits.extractLsb' 0 63 ++ b, numWbits := s.rtc.numWbits + 1#7 } }

/-- R109: in the locked phase a bit is appended and counted modulo 128, and nothing else happens. -/
def Obligations.LockedPhaseOnlyShifts : Prop :=
  ∀ (s : State) (b : Bit),
    s.rtc.state ≠ 0x00#8 → s.rtc.state ≠ 0x62#8 → s.rtc.state ≠ 0x64#8 → s.rtc.state ≠ 0x66#8 →
      rtcWriteBit b s = .next { s with rtc := { s.rtc with
        wbits := s.rtc.wbits.extractLsb' 0 63 ++ b, numWbits := s.rtc.numWbits + 1#7 } }

/-- R70: eight bits written from an idle RTC with no bit pending run the command whose byte holds
them most significant first. -/
def Obligations.EightBitsAssembleTheCommand : Prop :=
  ∀ (s : State) (b0 b1 b2 b3 b4 b5 b6 b7 : Bit), s.rtc.state = 0x00#8 → s.rtc.numWbits = 0#7 →
    writeBits [b0, b1, b2, b3, b4, b5, b6, b7] s =
      exec (decodeCommand (b0 ++ b1 ++ b2 ++ b3 ++ b4 ++ b5 ++ b6 ++ b7))
        (captured (b0 ++ b1 ++ b2 ++ b3 ++ b4 ++ b5 ++ b6 ++ b7) s)

/-- Derived (42_rtc_commands.md R117; that a command's meaning holds the capture of its byte is the
model's choice, log 9): the dispatch of a byte runs the instruction that the decoder reads from that
byte, and it does the same whether or not the RTC holds what capture leaves. -/
def Obligations.DispatchRunsTheDecodedCommand : Prop :=
  ∀ (s : State) (cmd : Byte), dispatchCommand cmd s = exec (decodeCommand cmd) s ∧
    exec (decodeCommand cmd) (captured cmd s) = exec (decodeCommand cmd) s

/-- R118: captured, both reset bytes leave the five RTC registers 0 and touch nothing else. -/
def Obligations.ResetCommandClearsTheRtc : Prop :=
  ∀ (s : State) (cmd : Byte), cmd = 0x60#8 ∨ cmd = 0x61#8 →
    ∃ rw, decodeCommand cmd = .cmdReset rw ∧
      exec (.cmdReset rw) (captured cmd s) = .next { s with
        rtc := { rbits := 0#64, numRbits := 0#7, wbits := 0#64, numWbits := 0#7, state := 0x00#8 } }

/-- R130: each write command takes exactly its payload length of bits, whatever they are, keeping its
state until the last one, and then is idle with every count 0. -/
def Obligations.WriteCommandsTakeExactlyTheirPayload : Prop :=
  ∀ (s : State) (i : Instr) (cmd : Byte) (length : Nat),
    (i = .cmdWrStatus ∧ cmd = 0x62#8 ∧ length = 8) ∨ (i = .cmdWrDatetime ∧ cmd = 0x64#8 ∧ length = 56) ∨
        (i = .cmdWrTime ∧ cmd = 0x66#8 ∧ length = 24) →
    ∃ t, exec i (captured cmd s) = .next t ∧ t = captured cmd s ∧
      (∀ bits : List Bit, bits.length < length →
        ∃ u, writeBits bits t = .next u ∧ u.rtc.state = cmd ∧ u.rtc.numWbits.toNat = bits.length) ∧
      ∀ bits : List Bit, bits.length = length →
        writeBits bits t = .next { s with
          rtc := { rbits := 0#64, numRbits := 0#7, wbits := 0#64, numWbits := 0#7, state := 0x00#8 } }

/-- R120: the status read queues 0x40 whatever went before, is idle at once, and the next eight
`RTC_ReadBit` calls return its bits, most significant first, and later ones 0. -/
def Obligations.StatusReadQueuesTheConstant : Prop :=
  ∀ (s : State) (k : Nat), ∃ t, exec .cmdRdStatus (captured 0x63#8 s) = .next t ∧
    t = { s with rtc :=
      { rbits := 0x40#64, numRbits := 8#7, wbits := 0#64, numWbits := 0#7, state := 0x00#8 } } ∧
    readBits (8 + k) t = [0#1, 1#1, 0#1, 0#1, 0#1, 0#1, 0#1, 0#1] ++ List.replicate k 0#1

/-- R122: the date and time read queues the seven BCD bytes of the draw of this step, year first, and
is idle at once; the next 56 bits read are those bytes, most significant bit first, and later ones 0. -/
def Obligations.DatetimeReadQueuesSevenBytes : Prop :=
  ∀ (s : State) (d : DateTime) (k : Nat), admitTime s.now = some d →
    ∃ t, exec .cmdRdDatetime (captured 0x65#8 s) = .next t ∧
      t = { s with rtc :=
        { rbits := 0#8 ++ bcd d.yy ++ bcd d.mo ++ bcd d.dd ++ bcd d.wd ++ bcd d.hh ++ bcd d.mi ++ bcd d.ss
          numRbits := 56#7, wbits := 0#64, numWbits := 0#7, state := 0x00#8 } } ∧
      readBits (56 + k) t =
        msbFirst (bcd d.yy) ++ msbFirst (bcd d.mo) ++ msbFirst (bcd d.dd) ++ msbFirst (bcd d.wd) ++
          msbFirst (bcd d.hh) ++ msbFirst (bcd d.mi) ++ msbFirst (bcd d.ss) ++ List.replicate k 0#1

/-- R124: the time read queues the three BCD bytes of the draw of this step, hour first, and is idle
at once; the next 24 bits read are those bytes, most significant bit first, and later ones 0. -/
def Obligations.TimeReadQueuesThreeBytes : Prop :=
  ∀ (s : State) (d : DateTime) (k : Nat), admitTime s.now = some d →
    ∃ t, exec .cmdRdTime (captured 0x67#8 s) = .next t ∧
      t = { s with rtc :=
        { rbits := 0#40 ++ bcd d.hh ++ bcd d.mi ++ bcd d.ss
          numRbits := 24#7, wbits := 0#64, numWbits := 0#7, state := 0x00#8 } } ∧
      readBits (24 + k) t =
        msbFirst (bcd d.hh) ++ msbFirst (bcd d.mi) ++ msbFirst (bcd d.ss) ++ List.replicate k 0#1

/-- R125: captured, the null command leaves the RTC idle with everything clear, in either mode; eight
zero bits written to an idle RTC with no bit pending are that command, and discard a response. -/
def Obligations.NullCommandStaysIdle : Prop :=
  ∀ s : State,
    exec .cmdNull (captured 0x00#8 s) = .next { s with
      rtc := { rbits := 0#64, numRbits := 0#7, wbits := 0#64, numWbits := 0#7, state := 0x00#8 } } ∧
    (s.rtc.state = 0x00#8 → s.rtc.numWbits = 0#7 →
      writeBits (List.replicate 8 0#1) s = .next { s with
        rtc := { rbits := 0#64, numRbits := 0#7, wbits := 0#64, numWbits := 0#7, state := 0x00#8 } })

/-- R126: in mode `LOCKUP` an unrecognised byte stays in `state`; from then on every written bit leaves
it there and every read bit is 0. -/
def Obligations.UnrecognisedByteLocks : Prop :=
  ∀ (s : State) (cmd : Byte), unrecognised cmd = true → s.mode = .lockup →
    ∃ t, exec (.cmdUnrecognised cmd) (captured cmd s) = .next t ∧ t = captured cmd s ∧
      ∀ bits : List Bit, ∃ u, writeBits bits t = .next u ∧ u.rtc.state = cmd ∧
        ∀ k, readBits k u = List.replicate k 0#1

/-- R127: in mode `IGNORE` an unrecognised byte leaves what the null command leaves, an idle RTC. -/
def Obligations.UnrecognisedByteIgnored : Prop :=
  ∀ (s : State) (cmd : Byte), unrecognised cmd = true → s.mode = .ignore →
    exec (.cmdUnrecognised cmd) (captured cmd s) = exec .cmdNull (captured 0x00#8 s) ∧
      exec (.cmdUnrecognised cmd) (captured cmd s) = .next { s with
        rtc := { rbits := 0#64, numRbits := 0#7, wbits := 0#64, numWbits := 0#7, state := 0x00#8 } }

/-- R128: in mode `LOCKUP` no request but `Init` leaves the locked phase, and `Init` does. -/
def Obligations.OnlyInitEndsTheLockup : Prop :=
  ∀ (s t : State) (input : Input) (rest : List Input),
    s.mode = .lockup → Locked s.rtc → s.pending = input :: rest → step s = .next t →
      (input.request = .init → phase t.rtc.state = .idle) ∧
      (input.request ≠ .init → t.rtc.state = s.rtc.state ∧ Locked t.rtc)

/-- R112: in a state that meets the invariant, a chip-to-host edge in the payload or the locked phase
fetches 0 and leaves the RTC, the payload count included, as it was. -/
def Obligations.ReadsOutsideIdleFetchZero : Prop :=
  ∀ (s : State) (value : HalfWord), Inv s → s.initialised = true → s.rtc.state ≠ 0x00#8 →
    ClocksABit s value → s.gpio.direction.getLsbD 1 = false →
      outgoingBit s.rtc = 0#1 ∧
        exec (.wrData value) s = .next { s with
          gpio := { s.gpio with data := value.extractLsb' 2 2 ++ 0#1 ++ 1#1 } }

/-- Derived (41_rtc_serial.md R111, 20_memory.md R49): the bits of a queued response come out from the
highest queued position down to position 0, and then zeros. -/
def Obligations.ResponsesComeOutHighestBitFirst : Prop :=
  ∀ (s : State) (k : Nat),
    readBits (s.rtc.numRbits.toNat + k) s =
      (List.range s.rtc.numRbits.toNat).map
          (fun j => BitVec.ofBool (s.rtc.rbits.getLsbD (s.rtc.numRbits.toNat - 1 - j))) ++
        List.replicate k 0#1

/-- Derived (42_rtc_commands.md R132): two idle RTCs that complete the same read command with the same
time answer hold the same afterwards, whatever else differs: earlier payloads and commands, a response
still queued, the GPIO registers. -/
def Obligations.ResponsesDependOnTheDrawAlone : Prop :=
  ∀ (s s' t t' : State) (b : Bit) (cmd : Byte),
    cmd = 0x63#8 ∨ cmd = 0x65#8 ∨ cmd = 0x67#8 →
    s.rtc.state = 0x00#8 → s'.rtc.state = 0x00#8 → s.rtc.numWbits = 7#7 → s'.rtc.numWbits = 7#7 →
    s.rtc.wbits.extractLsb' 0 7 ++ b = cmd → s'.rtc.wbits.extractLsb' 0 7 ++ b = cmd →
    s.now = s'.now → rtcWriteBit b s = .next t → rtcWriteBit b s' = .next t' → t.rtc = t'.rtc

/-- Derived (00_scope.md R11, 92_eei_decisions.md D14): whatever `TIME_VALID` is, a time response holds
the BCD bytes of a draw that meets it; and where it is the default predicate or a stronger one (log 16),
every byte of the response is a BCD byte in its calendar range. -/
def Obligations.ValidDrawsGiveCalendarBytes : Prop :=
  ∀ (timeValid : TimeValid) (s t : State) (d : DateTime),
    admitTime s.now = some d → timeValid d = true →
    exec .cmdRdTime (captured 0x67#8 s) = .next t →
      (∃ d', timeValid d' = true ∧
        t.rtc.rbits = 0#40 ++ bcd d'.hh ++ bcd d'.mi ++ bcd d'.ss) ∧
      ((∀ d', timeValid d' = true → Config.timeValidDefault d' = true) →
        t.rtc.rbits.extractLsb' 16 8 ≤ 0x23#8 ∧ t.rtc.rbits.extractLsb' 8 8 ≤ 0x59#8 ∧
          t.rtc.rbits.extractLsb' 0 8 ≤ 0x59#8 ∧
          ∀ k < 16, (t.rtc.rbits.extractLsb' (4 * k) 4).toNat ≤ 9)

/-- R133, R135 and R136: the high digit of `bcd x` is the tens digit and the low one the units digit,
both 0 to 9; `decimal` takes it back to `x`; and `bcd` takes `decimal b` back to `b` exactly when both
digits of `b` are 0 to 9. -/
def Obligations.BcdAndDecimalAreInverse : Prop :=
  (∀ x : Fin 100, (bcd x).extractLsb' 4 4 = BitVec.ofNat 4 (x.val / 10) ∧
    (bcd x).extractLsb' 0 4 = BitVec.ofNat 4 (x.val % 10) ∧ x.val / 10 ≤ 9 ∧ x.val % 10 ≤ 9 ∧
    decimal (bcd x) = x.val) ∧
  ∀ b : Byte, ((b.extractLsb' 4 4).toNat ≤ 9 ∧ (b.extractLsb' 0 4).toNat ≤ 9) ↔
    ∃ h : decimal b < 100, bcd ⟨decimal b, h⟩ = b

/-- Derived (30_encoding.md sections 1, 2 and 6; the byte frame is the model's, log 6): every
well-formed instruction is what the decoder reads from its own bytes. -/
def Obligations.DecodeEncodeRoundTrip : Prop :=
  ∀ i : Instr, i.wf = true → decodeBytes (encodeBytes i) = .ok i

/-- Derived (30_encoding.md sections 1, 2 and 6; the byte frame is the model's, log 6): bytes that
decode are the bytes of the instruction they decode to, which is well formed. -/
def Obligations.EncodeDecodeRoundTrip : Prop :=
  ∀ (bs : List Byte) (i : Instr), decodeBytes bs = .ok i → encodeBytes i = bs ∧ i.wf = true

/-- R84: the decoder picks the row that the first match in table order picks, and two rows other than
the fallback rows (mask 0) never match the same request or byte. -/
def Obligations.FirstMatchingRowWins : Prop :=
  ∀ e : Encoded, (selectRow e).map (·.mnemonic) = some (decode e).mnemonic ∧
    ∀ r ∈ opcodeTable, ∀ r' ∈ opcodeTable, r.matches e = true → r'.matches e = true →
      r.mask ≠ 0 → r'.mask ≠ 0 → r = r'

/-- Derived (30_encoding.md R63, R64, R69): a few words written out from the spec decode to their
instructions. -/
def Obligations.SampleWordsDecode : Prop :=
  decodeBytes [] = .ok .init ∧
  decodeBytes [0xC4#8, 0x00#8, 0x00#8, 0x00#8] = .ok .rdData ∧
  decodeBytes [0xC4#8, 0x00#8, 0x00#8, 0x08#8] = .ok (.rdOther 0x080000C4#32) ∧
  decodeBytes [0xC6#8, 0x00#8, 0x00#8, 0x00#8, 0x34#8, 0x12#8] = .ok (.wrDir 0x1234#16) ∧
  decodeBytes [0b01100001#8] = .ok (.cmdReset 1#1) ∧
  decodeBytes [0b01100011#8] = .ok .cmdRdStatus ∧
  decodeBytes [0b01100101#8] = .ok .cmdRdDatetime ∧
  decodeBytes [0b00010010#8] = .ok (.cmdUnrecognised 0x12#8) ∧
  decodeBytes [0x00#8, 0x00#8] = .error (.noFormat 2)

/-- R40: the phase view of `RTC.state`, whose locked arm no run reaches in mode `IGNORE`. -/
def Obligations.PhaseViewOfState : Prop :=
  phase 0x00#8 = .idle ∧ phase 0x62#8 = .awaiting 0x62#8 8 ∧ phase 0x64#8 = .awaiting 0x64#8 56 ∧
    phase 0x66#8 = .awaiting 0x66#8 24 ∧
    (∀ state : Byte, state ≠ 0x00#8 → state ≠ 0x62#8 → state ≠ 0x64#8 → state ≠ 0x66#8 →
      phase state = .locked state) ∧
    ∀ s : State, Reachable s → s.initialised = true → s.mode = .ignore →
      ∀ cmd, phase s.rtc.state ≠ .locked cmd

/-- Derived (10_state.md section 6): every step keeps the invariant, from every state that meets it. -/
def Obligations.StepKeepsInvariant : Prop :=
  ∀ s t : State, Inv s → step s = .next t → Inv t

/-- Derived (the reset state is the one after `Init`, log 1): the invariant holds at reset. -/
def Obligations.ResetMeetsInvariant : Prop :=
  Inv State.reset ∧ State.reset.initialised = true

/-- R41 and R42: every initialised state of a run that starts before the first `Init` with any
register contents meets the counter bounds of its phase, and `state` holds a legal value. -/
def Obligations.ReachableStatesMeetTheBounds : Prop :=
  ∀ s : State, Reachable s → s.initialised = true →
    (s.rtc.state = 0x00#8 → s.rtc.numWbits.toNat ≤ 7) ∧
    (∀ cmd length, phase s.rtc.state = .awaiting cmd length →
      s.rtc.numWbits.toNat ≤ length - 1 ∧ s.rtc.numRbits = 0#7) ∧
    s.rtc.numRbits.toNat ≤ 56 ∧
    (s.rtc.numRbits ≠ 0#7 → s.rtc.state = 0x00#8) ∧
    (Locked s.rtc → s.rtc.numRbits = 0#7) ∧
    (s.rtc.state ≠ 0x60#8 ∧ s.rtc.state ≠ 0x61#8 ∧ s.rtc.state ≠ 0x63#8 ∧ s.rtc.state ≠ 0x65#8 ∧
      s.rtc.state ≠ 0x67#8) ∧
    (s.mode = .ignore →
      s.rtc.state = 0x00#8 ∨ s.rtc.state = 0x62#8 ∨ s.rtc.state = 0x64#8 ∨ s.rtc.state = 0x66#8)

/-- Derived (10_state.md section 5): two states that differ only in what R39 calls unobservable step to
two such states, with the same responses and the same refusals: no run tells them apart. -/
def Obligations.HiddenBitsAreUnobservable : Prop :=
  ∀ s s' : State, SameObservable s s' →
    (∀ t, step s = .next t → ∃ t', step s' = .next t' ∧ SameObservable t t') ∧
    (∀ r, step s = .refused r ↔ step s' = .refused r)

/-- Derived (10_state.md sections 2 and 4): which requests can change which register. -/
def Obligations.RegistersChangeOnlyByTheirWriters : Prop :=
  ∀ (s t : State) (input : Input) (rest : List Input),
    s.pending = input :: rest → step s = .next t → input.request ≠ .init →
      (t.gpio.data ≠ s.gpio.data → ∃ v, input.request = .write 0xC4#32 v) ∧
      (t.gpio.direction ≠ s.gpio.direction → ∃ v, input.request = .write 0xC6#32 v) ∧
      (t.gpio.readEnabled ≠ s.gpio.readEnabled → ∃ v, input.request = .write 0xC8#32 v) ∧
      (t.rtc ≠ s.rtc → ∃ v, input.request = .write 0xC4#32 v ∧ ClocksABit s v) ∧
      t.initialised = s.initialised

/-- R115: `state`, and so the phase, changes only in the step of a host-to-chip edge (`RTC_WriteBit`)
or of `Init` (`RTC_Reset`); `RTC_ReadBit` never changes it. -/
def Obligations.PhaseChangesOnlyOnWrittenBits : Prop :=
  (∀ s : State, (rtcReadBit s).rtc.state = s.rtc.state) ∧
  ∀ (s t : State) (input : Input) (rest : List Input),
    s.pending = input :: rest → step s = .next t → t.rtc.state ≠ s.rtc.state →
      input.request = .init ∨
        ∃ v, input.request = .write 0xC4#32 v ∧ ClocksABit s v ∧ s.gpio.direction.getLsbD 1 = true

/-- Derived (00_scope.md sections 4 and 7; the ports' form is the model's, log 3 and log 5): a step
consumes exactly one input, keeps the mode, and appends one response exactly when it is a read. -/
def Obligations.EachStepHandlesOneRequest : Prop :=
  ∀ s t : State, step s = .next t →
    ∃ input, s.pending = input :: t.pending ∧ t.now = input.time ∧ t.mode = s.mode ∧
      ((∃ addr, input.request = .read addr ∧
          t.responses = s.responses ++ [readHalfword s addr]) ∨
        ((∀ addr, input.request ≠ .read addr) ∧ t.responses = s.responses))

/-- Derived (30_encoding.md R82): the two requests of `SEND_BIT b` with SIO host-driven make one
`RTC_WriteBit(b)`, whatever the lines were. -/
def Obligations.SendBitWritesOneBit : Prop :=
  ∀ (s : State) (b : Bit) (time : TimeAnswer) (rest : List Input),
    s.initialised = true → s.gpio.direction.getLsbD 1 = true →
    s.pending = inputsAt time (sendBit b) ++ rest →
      runSteps 2 s = rtcWriteBit b { s with
        gpio := { s.gpio with data := 0b01#2 ++ b ++ 1#1 }, pending := rest, now := time }

/-- Derived (30_encoding.md R82): the three requests of `RECV_BIT` with SIO chip-driven and reads
enabled answer with the RTC's next bit in bit 1, and take that bit off the response. -/
def Obligations.RecvBitReadsOneBit : Prop :=
  ∀ (s : State) (time : TimeAnswer) (rest : List Input),
    s.initialised = true → s.gpio.direction.getLsbD 1 = false → s.gpio.readEnabled = 1#1 →
    s.pending = inputsAt time recvBit ++ rest →
      ∃ b : Bit, b = (if s.rtc.numRbits = 0#7 then 0#1
          else BitVec.ofBool (s.rtc.rbits.getLsbD (s.rtc.numRbits.toNat - 1))) ∧
        runSteps 3 s = .next { s with
          gpio := { s.gpio with data := 0b01#2 ++ b ++ 1#1 }
          rtc := { s.rtc with
            numRbits := if s.rtc.numRbits = 0#7 then 0#7 else s.rtc.numRbits - 1#7 }
          pending := rest
          now := time
          responses := s.responses ++ [0b00000000000001#14 ++ b ++ 1#1] }

/-- Derived (30_encoding.md R70, R82): the sixteen requests of `SEND_BYTE v`, sent to an idle RTC with
no bit pending, capture `v` and run the command it decodes to. -/
def Obligations.SendByteRunsItsCommand : Prop :=
  ∀ (s : State) (v : Byte) (time : TimeAnswer) (rest : List Input),
    s.initialised = true → s.gpio.direction.getLsbD 1 = true → s.rtc.state = 0x00#8 →
    s.rtc.numWbits = 0#7 → s.pending = inputsAt time (sendByte v) ++ rest →
      runSteps 16 s = exec (decodeCommand v) (captured v { s with
        gpio := { s.gpio with data := 0b01#2 ++ v.extractLsb' 0 1 ++ 1#1 }, pending := rest, now := time })

/-- Derived (the frame of a table word and its placing are the model's, log 6 and log 7): a placed
word is run by the very next step. -/
def Obligations.PlacedWordRunsNext : Prop :=
  ∀ (s : State) (addr : Addr) (value : HalfWord) (cmd : Byte), s.initialised = true →
    step (s.withFetchWord 32 addr.toNat) = exec (decodeRead addr) s ∧
    step (s.withFetchWord 48 (value.toNat * 2 ^ 32 + addr.toNat)) = exec (decodeWrite addr value) s ∧
    step (s.withFetchWord 0 0) = exec .init s ∧
    ∃ s', step (s.withFetchWord 8 cmd.toNat) = exec (decodeCommand cmd) s' ∧ s'.pending = s.pending ∧
      s'.now = s.now ∧ s'.mode = s.mode ∧ s'.responses = s.responses ∧ s'.initialised = true ∧
      s'.gpio.readEnabled = s.gpio.readEnabled

/-- Derived (00_scope.md R11, R12 and R18): whatever `TIME_VALID` is, while every answer of the time
source meets it no step is refused for its time answer, and a step leaves a draw that meets it at the
`now` port and a time source that still meets it. -/
def Obligations.TimeSourceThatMeetsThePredicateIsNeverRefused : Prop :=
  ∀ (timeValid : TimeValid) (s : State), TimeSourceMeets s timeValid →
    step s ≠ .refused .timeOutOfRange ∧
    ∀ t, step s = .next t → TimeSourceMeets t timeValid ∧
      ∃ d, admitTime t.now = some d ∧ timeValid d = true
end

