-- ==== Sys2Proof/Laws/State.lean ====
section
/-! SUPPORT. One lemma per field per update of State, each true by rfl, so that no proof unfolds a
record update. -/

namespace Sys2Proof.Machine

@[simp] theorem setData_data (v : Lines) (s : State) : (setData v s).gpio.data = v := rfl
@[simp] theorem setData_direction (v : Lines) (s : State) : (setData v s).gpio.direction = s.gpio.direction := rfl
@[simp] theorem setData_readEnabled (v : Lines) (s : State) : (setData v s).gpio.readEnabled = s.gpio.readEnabled := rfl
@[simp] theorem setData_rtc (v : Lines) (s : State) : (setData v s).rtc = s.rtc := rfl
@[simp] theorem setData_responses (v : Lines) (s : State) : (setData v s).responses = s.responses := rfl
@[simp] theorem setData_initialised (v : Lines) (s : State) : (setData v s).initialised = s.initialised := rfl
@[simp] theorem setData_mode (v : Lines) (s : State) : (setData v s).mode = s.mode := rfl
@[simp] theorem setData_pending (v : Lines) (s : State) : (setData v s).pending = s.pending := rfl
@[simp] theorem setData_now (v : Lines) (s : State) : (setData v s).now = s.now := rfl

@[simp] theorem setDirection_data (v : Lines) (s : State) : (setDirection v s).gpio.data = s.gpio.data := rfl
@[simp] theorem setDirection_direction (v : Lines) (s : State) : (setDirection v s).gpio.direction = v := rfl
@[simp] theorem setDirection_readEnabled (v : Lines) (s : State) : (setDirection v s).gpio.readEnabled = s.gpio.readEnabled := rfl
@[simp] theorem setDirection_rtc (v : Lines) (s : State) : (setDirection v s).rtc = s.rtc := rfl
@[simp] theorem setDirection_responses (v : Lines) (s : State) : (setDirection v s).responses = s.responses := rfl
@[simp] theorem setDirection_initialised (v : Lines) (s : State) : (setDirection v s).initialised = s.initialised := rfl
@[simp] theorem setDirection_mode (v : Lines) (s : State) : (setDirection v s).mode = s.mode := rfl
@[simp] theorem setDirection_pending (v : Lines) (s : State) : (setDirection v s).pending = s.pending := rfl
@[simp] theorem setDirection_now (v : Lines) (s : State) : (setDirection v s).now = s.now := rfl

@[simp] theorem setReadEnabled_data (v : Bit) (s : State) : (setReadEnabled v s).gpio.data = s.gpio.data := rfl
@[simp] theorem setReadEnabled_direction (v : Bit) (s : State) : (setReadEnabled v s).gpio.direction = s.gpio.direction := rfl
@[simp] theorem setReadEnabled_readEnabled (v : Bit) (s : State) : (setReadEnabled v s).gpio.readEnabled = v := rfl
@[simp] theorem setReadEnabled_rtc (v : Bit) (s : State) : (setReadEnabled v s).rtc = s.rtc := rfl
@[simp] theorem setReadEnabled_responses (v : Bit) (s : State) : (setReadEnabled v s).responses = s.responses := rfl
@[simp] theorem setReadEnabled_initialised (v : Bit) (s : State) : (setReadEnabled v s).initialised = s.initialised := rfl
@[simp] theorem setReadEnabled_mode (v : Bit) (s : State) : (setReadEnabled v s).mode = s.mode := rfl
@[simp] theorem setReadEnabled_pending (v : Bit) (s : State) : (setReadEnabled v s).pending = s.pending := rfl
@[simp] theorem setReadEnabled_now (v : Bit) (s : State) : (setReadEnabled v s).now = s.now := rfl

@[simp] theorem setRtc_gpio (r : Rtc) (s : State) : (setRtc r s).gpio = s.gpio := rfl
@[simp] theorem setRtc_rtc (r : Rtc) (s : State) : (setRtc r s).rtc = r := rfl
@[simp] theorem setRtc_responses (r : Rtc) (s : State) : (setRtc r s).responses = s.responses := rfl
@[simp] theorem setRtc_initialised (r : Rtc) (s : State) : (setRtc r s).initialised = s.initialised := rfl
@[simp] theorem setRtc_mode (r : Rtc) (s : State) : (setRtc r s).mode = s.mode := rfl
@[simp] theorem setRtc_pending (r : Rtc) (s : State) : (setRtc r s).pending = s.pending := rfl
@[simp] theorem setRtc_now (r : Rtc) (s : State) : (setRtc r s).now = s.now := rfl

@[simp] theorem respond_gpio (v : HalfWord) (s : State) : (respond v s).gpio = s.gpio := rfl
@[simp] theorem respond_rtc (v : HalfWord) (s : State) : (respond v s).rtc = s.rtc := rfl
@[simp] theorem respond_responses (v : HalfWord) (s : State) : (respond v s).responses = s.responses ++ [v] := rfl
@[simp] theorem respond_initialised (v : HalfWord) (s : State) : (respond v s).initialised = s.initialised := rfl
@[simp] theorem respond_mode (v : HalfWord) (s : State) : (respond v s).mode = s.mode := rfl
@[simp] theorem respond_pending (v : HalfWord) (s : State) : (respond v s).pending = s.pending := rfl
@[simp] theorem respond_now (v : HalfWord) (s : State) : (respond v s).now = s.now := rfl

@[simp] theorem setRtc_setRtc (r r' : Rtc) (s : State) : setRtc r (setRtc r' s) = setRtc r s := rfl
@[simp] theorem setRtc_self (s : State) : setRtc s.rtc s = s := rfl
@[simp] theorem setData_setData (v v' : Lines) (s : State) : setData v (setData v' s) = setData v s := rfl
theorem setData_setRtc (v : Lines) (r : Rtc) (s : State) : setData v (setRtc r s) = setRtc r (setData v s) := rfl

@[simp] theorem returnToIdle_state (r : Rtc) : (returnToIdle r).state = 0#8 := rfl
@[simp] theorem returnToIdle_captureCommand (cmd : Byte) : returnToIdle (captureCommand cmd) = Rtc.reset := rfl
@[simp] theorem captureCommand_state (cmd : Byte) : (captureCommand cmd).state = cmd := rfl
@[simp] theorem captureCommand_numRbits (cmd : Byte) : (captureCommand cmd).numRbits = 0#7 := rfl
@[simp] theorem captureCommand_numWbits (cmd : Byte) : (captureCommand cmd).numWbits = 0#7 := rfl
@[simp] theorem captureCommand_zero : captureCommand 0#8 = Rtc.reset := rfl
@[simp] theorem discardPayload_eq (r : Rtc) : discardPayload r = Rtc.reset := rfl
@[simp] theorem rtcReset_eq (s : State) : rtcReset s = setRtc Rtc.reset s := rfl
@[simp] theorem queueResponse_eq (bits : Shift) (n : Count) (cmd : Byte) :
    queueResponse bits n (captureCommand cmd) =
      { rbits := bits, numRbits := n, wbits := 0#64, numWbits := 0#7, state := 0x00#8 } := rfl
@[simp] theorem appendBit_state (b : Bit) (r : Rtc) : (appendBit b r).state = r.state := rfl
@[simp] theorem appendBit_numWbits (b : Bit) (r : Rtc) : (appendBit b r).numWbits = r.numWbits + 1#7 := rfl
@[simp] theorem appendBit_rbits (b : Bit) (r : Rtc) : (appendBit b r).rbits = r.rbits := rfl
@[simp] theorem appendBit_numRbits (b : Bit) (r : Rtc) : (appendBit b r).numRbits = r.numRbits := rfl
@[simp] theorem rtcReadBit_rtc (s : State) : (rtcReadBit s).rtc = afterReadBit s.rtc := rfl
@[simp] theorem rtcReadBit_data (s : State) :
    (rtcReadBit s).gpio.data = setSio (outgoingBit s.rtc) s.gpio.data := rfl

end Sys2Proof.Machine
end

