-- ==== Sys2Proof/Laws/Ops.lean ====
section
/-! SUPPORT. One lemma per shared operation that says once what it can do; later proofs cite these
instead of unfolding the operation. -/

namespace Sys2Proof.Machine

/-- A request answers a next state only after the first `Init`, and then what its body answers. -/
theorem whenInitialised_next {s t : State} {r : Result} (h : whenInitialised s r = .next t) :
    s.initialised = true ∧ r = .next t := by
  unfold whenInitialised at h
  split at h
  · exact ⟨‹_›, h⟩
  · cases h

theorem whenInitialised_of {s : State} (h : s.initialised = true) (r : Result) :
    whenInitialised s r = r := by
  simp [whenInitialised, h]

/-- The time-source boundary admits exactly the answers whose fields are all below 100. -/
theorem admitTime_isSome (a : TimeAnswer) :
    (admitTime a).isSome = true ↔
      a.yy < 100 ∧ a.mo < 100 ∧ a.dd < 100 ∧ a.wd < 100 ∧ a.hh < 100 ∧ a.mi < 100 ∧ a.ss < 100 := by
  unfold admitTime
  split <;> simp_all

/-- A dispatch that samples the time runs with an admitted draw, or is refused by name. -/
theorem withTime_cases (s : State) (use : DateTime → State) :
    (∃ t, admitTime s.now = some t ∧ withTime s use = .next (use t)) ∨
      (admitTime s.now = none ∧ withTime s use = .refused .timeOutOfRange) := by
  unfold withTime
  cases h : admitTime s.now with
  | some t => exact .inl ⟨t, rfl, rfl⟩
  | none => exact .inr ⟨rfl, rfl⟩

/-- The three write commands are the states with a payload length (R110). -/
theorem payloadLength_eq_some {state : Byte} {n : Count} :
    payloadLength state = some n ↔
      state = 0x62#8 ∧ n = 8#7 ∨ state = 0x64#8 ∧ n = 56#7 ∨ state = 0x66#8 ∧ n = 24#7 := by
  unfold payloadLength
  constructor
  · intro h
    split at h
    · left; simp_all
    · split at h
      · right; left; simp_all
      · split at h
        · right; right; simp_all
        · cases h
  · rintro (⟨rfl, rfl⟩ | ⟨rfl, rfl⟩ | ⟨rfl, rfl⟩) <;> decide

theorem payloadLength_eq_none {state : Byte} :
    payloadLength state = none ↔ state ≠ 0x62#8 ∧ state ≠ 0x64#8 ∧ state ≠ 0x66#8 := by
  unfold payloadLength
  split
  · simp_all
  · split
    · simp_all
    · split <;> simp_all

theorem phase_idle : phase 0x00#8 = .idle := rfl

theorem phase_awaiting {state : Byte} {n : Count} (h : payloadLength state = some n) :
    phase state = .awaiting state n.toNat := by
  rcases payloadLength_eq_some.1 h with ⟨rfl, rfl⟩ | ⟨rfl, rfl⟩ | ⟨rfl, rfl⟩ <;> rfl

theorem phase_locked {r : Rtc} (h : Locked r) : phase r.state = .locked r.state := by
  simp [phase, h.1, h.2]

/-- Every byte is unrecognised or one of the nine that R69 lists. -/
theorem unrecognised_or_listed : ∀ cmd : Byte, unrecognised cmd = true ∨
    cmd ∈ [0x00#8, 0x60#8, 0x61#8, 0x62#8, 0x63#8, 0x64#8, 0x65#8, 0x66#8, 0x67#8] := by
  decide

/-- Everything the dispatch of a command byte can do: it changes the RTC alone and leaves it idle or
in the byte's own state with no bit written, or it refuses the time source's answer. -/
theorem dispatchCommand_cases (cmd : Byte) (s : State) :
    (∃ r : Rtc, dispatchCommand cmd s = .next (setRtc r s) ∧ r.numWbits = 0#7 ∧
        ((r.state = 0x00#8 ∧ r.numRbits.toNat ≤ 56) ∨
          (r.state = cmd ∧ r.numRbits = 0#7 ∧
            (cmd = 0x62#8 ∨ cmd = 0x64#8 ∨ cmd = 0x66#8 ∨ (unrecognised cmd = true ∧ s.mode = .lockup))))) ∨
      ((cmd = 0x65#8 ∨ cmd = 0x67#8) ∧ admitTime s.now = none ∧
        dispatchCommand cmd s = .refused .timeOutOfRange) := by
  unfold dispatchCommand
  split
  · exact .inl ⟨_, rfl, rfl, .inl ⟨rfl, by decide⟩⟩
  split
  · exact .inl ⟨_, rfl, rfl, .inl ⟨rfl, by decide⟩⟩
  split
  · exact .inl ⟨_, rfl, rfl, .inr ⟨‹cmd = _›.symm, rfl, .inl ‹_›⟩⟩
  split
  · exact .inl ⟨_, rfl, rfl, .inl ⟨rfl, by decide⟩⟩
  split
  · exact .inl ⟨_, rfl, rfl, .inr ⟨‹cmd = _›.symm, rfl, .inr (.inl ‹_›)⟩⟩
  split
  · rcases withTime_cases s fun t =>
      setRtc (queueResponse ((dateTimeBits t).setWidth 64) 56#7 (captureCommand 0x65#8)) s with
      ⟨t, -, ht⟩ | ⟨hn, ht⟩
    · exact .inl ⟨_, ht, rfl, .inl ⟨rfl, by simp⟩⟩
    · exact .inr ⟨.inl ‹_›, hn, ht⟩
  split
  · exact .inl ⟨_, rfl, rfl, .inr ⟨‹cmd = _›.symm, rfl, .inr (.inr (.inl ‹_›))⟩⟩
  split
  · rcases withTime_cases s fun t =>
      setRtc (queueResponse ((timeBits t).setWidth 64) 24#7 (captureCommand 0x67#8)) s with
      ⟨t, -, ht⟩ | ⟨hn, ht⟩
    · exact .inl ⟨_, ht, rfl, .inl ⟨rfl, by simp⟩⟩
    · exact .inr ⟨.inr ‹_›, hn, ht⟩
  split
  · exact .inl ⟨_, rfl, rfl, .inl ⟨rfl, by decide⟩⟩
  · have hu : unrecognised cmd = true := by
      have := unrecognised_or_listed cmd
      simp_all
    unfold execCmdUnrecognised
    cases hm : s.mode with
    | lockup => exact .inl ⟨_, rfl, rfl, .inr ⟨rfl, rfl, .inr (.inr (.inr ⟨hu, rfl⟩))⟩⟩
    | ignore => exact .inl ⟨_, rfl, rfl, .inl ⟨rfl, by simp [returnToIdle, captureCommand]⟩⟩

/-- Everything `RTC_WriteBit` can do (R106-R109): append the bit and no more, complete a payload, or
complete a command byte and run its dispatch. -/
theorem rtcWriteBit_cases (b : Bit) (s : State) :
    (rtcWriteBit b s = .next (setRtc (appendBit b s.rtc) s) ∧
        (s.rtc.state = 0x00#8 → s.rtc.numWbits + 1#7 ≠ 8#7) ∧
        ∀ n, payloadLength s.rtc.state = some n → s.rtc.numWbits + 1#7 ≠ n) ∨
      (rtcWriteBit b s = .next (setRtc Rtc.reset s) ∧
        payloadLength s.rtc.state = some (s.rtc.numWbits + 1#7)) ∨
      (rtcWriteBit b s =
          dispatchCommand ((appendBit b s.rtc).wbits.extractLsb' 0 8) (setRtc (appendBit b s.rtc) s) ∧
        s.rtc.state = 0x00#8 ∧ s.rtc.numWbits + 1#7 = 8#7) := by
  by_cases h0 : s.rtc.state = 0x00#8
  · have hw : rtcWriteBit b s = commandPhaseStep (setRtc (appendBit b s.rtc) s) := by
      simp [rtcWriteBit, h0]
    by_cases h8 : s.rtc.numWbits + 1#7 = 8#7
    · exact .inr (.inr ⟨by rw [hw]; simp [commandPhaseStep, h8], h0, h8⟩)
    · refine .inl ⟨by rw [hw]; simp [commandPhaseStep, h8], fun _ => h8, fun n hn => ?_⟩
      rw [h0] at hn; cases hn
  · cases hl : payloadLength s.rtc.state with
    | none => exact .inl ⟨by simp [rtcWriteBit, h0, hl, lockedStep], fun h => absurd h h0, nofun⟩
    | some n =>
      have hw : rtcWriteBit b s = payloadPhaseStep n (setRtc (appendBit b s.rtc) s) := by
        simp [rtcWriteBit, h0, hl]
      by_cases hn : s.rtc.numWbits + 1#7 = n
      · exact .inr (.inl ⟨by rw [hw]; simp [payloadPhaseStep, hn], by rw [hn]⟩)
      · refine .inl ⟨by rw [hw]; simp [payloadPhaseStep, hn], fun h => absurd h h0, fun m hm => ?_⟩
        cases hm; exact hn

/-- `RTC_ReadBit` changes `GPIO.data[SIO]` and the count alone. -/
theorem rtcReadBit_eq (s : State) :
    rtcReadBit s =
      setRtc (afterReadBit s.rtc) (setData (setSio (outgoingBit s.rtc) s.gpio.data) s) := rfl

/-- Everything a data write can do (40_gpio_bus.md R91-R93; 30_encoding.md R67): store alone, send
one bit, or fetch one bit. -/
theorem writeData_cases (value : HalfWord) (s : State) :
    (risingEdge s.gpio.data (lowLines value) = false ∧
        writeData value s = .next (setData (lowLines value) s)) ∨
      (risingEdge s.gpio.data (lowLines value) = true ∧ sio s.gpio.direction = 1#1 ∧
        writeData value s = rtcWriteBit (sio (lowLines value)) (setData (lowLines value) s)) ∨
      (risingEdge s.gpio.data (lowLines value) = true ∧ sio s.gpio.direction ≠ 1#1 ∧
        writeData value s = .next (rtcReadBit (setData (lowLines value) s))) := by
  by_cases he : risingEdge s.gpio.data (lowLines value) = true
  · by_cases hd : sio s.gpio.direction = 1#1
    · exact .inr (.inl ⟨he, hd, by simp [writeData, he, serialTransfer, hd]⟩)
    · exact .inr (.inr ⟨he, hd, by simp [writeData, he, serialTransfer, hd]⟩)
  · exact .inl ⟨by simpa using he, by simp [writeData, he]⟩

/-- A step that answers a next state took the first input of the queue and ran its instruction. -/
theorem step_next {s t : State} (h : step s = .next t) :
    ∃ input rest i, s.pending = input :: rest ∧ decodeRequest input.request = .ok i ∧
      exec i { s with pending := rest, now := input.time } = .next t := by
  cases hp : s.pending with
  | nil => rw [step, fetch, hp] at h; cases h
  | cons input rest =>
    cases hd : decodeRequest input.request with
    | error w => simp [step, fetch, hp, hd] at h
    | ok i => exact ⟨input, rest, i, rfl, hd, by simpa [step, fetch, hp, hd] using h⟩

end Sys2Proof.Machine
end

