-- ==== Sys2Proof/Laws/Bits.lean ====
section
/-! SUPPORT. The operand forms and the serial bit operations, said bit by bit or as concatenations. -/

namespace Sys2Proof.Machine

theorem bit_eq_one_iff : ∀ x : Bit, x = 1#1 ↔ x.getLsbD 0 = true := by decide
theorem bit_eq_zero_iff : ∀ x : Bit, x = 0#1 ↔ x.getLsbD 0 = false := by decide

theorem sio_eq_one_iff (d : Lines) : sio d = 1#1 ↔ d.getLsbD 1 = true := by
  rw [bit_eq_one_iff]; simp [sio]

/-- The edge detector, bit by bit (40_gpio_bus.md R92). -/
theorem risingEdge_iff (s : State) (v : HalfWord) :
    risingEdge s.gpio.data (lowLines v) = true ↔ ClocksABit s v := by
  simp [risingEdge, ClocksABit, bit_eq_one_iff, bit_eq_zero_iff, sck, cs, lowLines, and_assoc]

theorem sio_lowLines (v : HalfWord) : sio (lowLines v) = v.extractLsb' 1 1 := by
  simp [sio, lowLines]

theorem setSio_lowLines (b : Bit) (v : HalfWord) :
    setSio b (lowLines v) = v.extractLsb' 2 2 ++ b ++ v.extractLsb' 0 1 := by
  simp [setSio, lowLines]

theorem setSio_sio : ∀ v : Lines, setSio (sio v) v = v := by decide

/-- `RTC_WriteBit` drops bit 63 and puts the new bit at the bottom (41_rtc_serial.md R106). -/
theorem appendBit_wbits (b : Bit) (r : Rtc) :
    (appendBit b r).wbits = r.wbits.extractLsb' 0 63 ++ b := by
  show (r.wbits <<< 1) ||| b.setWidth 64 = (r.wbits.extractLsb' 0 63 ++ b : BitVec (63 + 1))
  apply BitVec.eq_of_getLsbD_eq
  intro i hi
  rw [BitVec.getLsbD_append]
  rcases Nat.eq_zero_or_pos i with rfl | h
  · simp
  · have h1 : ¬ i < 1 := by omega
    have h2 : i - 1 < 63 := by omega
    have h3 : b.getLsbD i = false := BitVec.getLsbD_of_ge b i (by omega)
    simp only [BitVec.getLsbD_or, BitVec.getLsbD_shiftLeft, BitVec.getLsbD_setWidth,
      BitVec.getLsbD_extractLsb', h1, hi, h2, h3]
    simp

theorem appendBit_eq (b : Bit) (r : Rtc) :
    appendBit b r =
      { r with wbits := r.wbits.extractLsb' 0 63 ++ b, numWbits := r.numWbits + 1#7 } := by
  rw [← appendBit_wbits]; rfl

/-- The bit `RTC_ReadBit` returns (41_rtc_serial.md R111). -/
theorem outgoingBit_eq (r : Rtc) :
    outgoingBit r =
      if r.numRbits = 0#7 then 0#1 else BitVec.ofBool (r.rbits.getLsbD (r.numRbits.toNat - 1)) := by
  unfold outgoingBit
  split
  · rfl
  · rename_i h
    have h0 : r.numRbits.toNat ≠ 0 := fun hc => h (BitVec.eq_of_toNat_eq (by simpa using hc))
    have h1 : (r.numRbits - 1#7).toNat = r.numRbits.toNat - 1 := by bv_omega
    rw [h1]
    apply BitVec.eq_of_getLsbD_eq
    intro i hi
    obtain rfl : i = 0 := by omega
    simp

theorem afterReadBit_eq (r : Rtc) :
    afterReadBit r =
      { r with numRbits := if r.numRbits = 0#7 then 0#7 else r.numRbits - 1#7 } := by
  by_cases h : r.numRbits = 0#7
  · cases r; simp_all [afterReadBit]
  · simp [afterReadBit, h]

/-- A command's meaning does not depend on what the RTC held before: its capture clears it all. -/
theorem dispatchCommand_setRtc (cmd : Byte) (r : Rtc) (s : State) :
    dispatchCommand cmd (setRtc r s) = dispatchCommand cmd s := rfl

end Sys2Proof.Machine
end

