-- ==== Sys2Proof/Laws/Step.lean ====
section
/-! SUPPORT. What one step can do, said once: the outcome of each shared operation, which states it
treats alike, and the inversion of a step. -/

namespace Sys2Proof.Machine

/-- A read of any offset, as one equation. -/
theorem exec_read (s : State) (addr : Addr) (h : s.initialised = true) :
    exec (decodeRead addr) s = .next (respond (readHalfword s addr) s) := by
  unfold decodeRead readHalfword
  split
  · simp [exec, execRdData, whenInitialised_of h]
  split
  · simp [exec, execRdDir, whenInitialised_of h]
  split
  · simp [exec, execRdEn, whenInitialised_of h]
  · simp [exec, execRdOther, whenInitialised_of h, readGate]

/-- Before the first `Init` every read is refused. -/
theorem exec_read_uninitialised (s : State) (addr : Addr) (h : s.initialised = false) :
    exec (decodeRead addr) s = .refused .notInitialised := by
  unfold decodeRead
  split
  · simp [exec, execRdData, whenInitialised, h]
  split
  · simp [exec, execRdDir, whenInitialised, h]
  split
  · simp [exec, execRdEn, whenInitialised, h]
  · simp [exec, execRdOther, whenInitialised, h]

/-- Before the first `Init` every write is refused. -/
theorem exec_write_uninitialised (s : State) (addr : Addr) (value : HalfWord)
    (h : s.initialised = false) : exec (decodeWrite addr value) s = .refused .notInitialised := by
  unfold decodeWrite
  split
  · simp [exec, execWrData, whenInitialised, h]
  split
  · simp [exec, execWrDir, whenInitialised, h]
  split
  · simp [exec, execWrEn, whenInitialised, h]
  · simp [exec, execWrOther, whenInitialised, h]

/-- `RTC_WriteBit` changes the RTC alone, or refuses the time source's answer. -/
theorem rtcWriteBit_next_or (b : Bit) (s : State) :
    (∃ r, rtcWriteBit b s = .next (setRtc r s)) ∨
      (admitTime s.now = none ∧ rtcWriteBit b s = .refused .timeOutOfRange) := by
  rcases rtcWriteBit_cases b s with ⟨h, -⟩ | ⟨h, -⟩ | ⟨h, -⟩
  · exact .inl ⟨_, h⟩
  · exact .inl ⟨_, h⟩
  · rw [dispatchCommand_setRtc] at h
    rcases dispatchCommand_cases ((appendBit b s.rtc).wbits.extractLsb' 0 8) s with
      ⟨r, hr, -⟩ | ⟨-, hn, hr⟩
    · exact .inl ⟨r, h.trans hr⟩
    · exact .inr ⟨hn, h.trans hr⟩

/-- A data write changes `GPIO.data` and the RTC alone, or refuses the time source's answer. -/
theorem writeData_next_or (v : HalfWord) (s : State) :
    (∃ d r, writeData v s = .next (setRtc r (setData d s))) ∨
      (admitTime s.now = none ∧ writeData v s = .refused .timeOutOfRange) := by
  rcases writeData_cases v s with ⟨-, h⟩ | ⟨-, -, h⟩ | ⟨-, -, h⟩
  · exact .inl ⟨_, s.rtc, h⟩
  · rcases rtcWriteBit_next_or (sio (lowLines v)) (setData (lowLines v) s) with ⟨r, hr⟩ | ⟨hn, hr⟩
    · exact .inl ⟨_, r, h.trans hr⟩
    · exact .inr ⟨hn, h.trans hr⟩
  · exact .inl ⟨setSio (outgoingBit s.rtc) (lowLines v), afterReadBit s.rtc, h⟩

/-- The dispatch of a byte reads the mode and the time answer alone. -/
theorem dispatchCommand_agree (cmd : Byte) {s s' : State} (hm : s.mode = s'.mode)
    (hn : s.now = s'.now) :
    (∃ r, dispatchCommand cmd s = .next (setRtc r s) ∧
        dispatchCommand cmd s' = .next (setRtc r s')) ∨
      (dispatchCommand cmd s = .refused .timeOutOfRange ∧
        dispatchCommand cmd s' = .refused .timeOutOfRange) := by
  unfold dispatchCommand
  iterate 5 (split; · exact .inl ⟨_, rfl, rfl⟩)
  split
  · simp only [execCmdRdDatetime, withTime, ← hn]
    cases admitTime s.now with
    | none => exact .inr ⟨rfl, rfl⟩
    | some t => exact .inl ⟨_, rfl, rfl⟩
  split
  · exact .inl ⟨_, rfl, rfl⟩
  split
  · simp only [execCmdRdTime, withTime, ← hn]
    cases admitTime s.now with
    | none => exact .inr ⟨rfl, rfl⟩
    | some t => exact .inl ⟨_, rfl, rfl⟩
  split
  · exact .inl ⟨_, rfl, rfl⟩
  · simp only [execCmdUnrecognised, ← hm]
    cases s.mode <;> exact .inl ⟨_, rfl, rfl⟩

/-- `RTC_WriteBit` reads the RTC, the mode and the time answer alone. -/
theorem rtcWriteBit_agree (b : Bit) {s s' : State} (hr : s.rtc = s'.rtc) (hm : s.mode = s'.mode)
    (hn : s.now = s'.now) :
    (∃ r, rtcWriteBit b s = .next (setRtc r s) ∧ rtcWriteBit b s' = .next (setRtc r s')) ∨
      (rtcWriteBit b s = .refused .timeOutOfRange ∧
        rtcWriteBit b s' = .refused .timeOutOfRange) := by
  by_cases h0 : s.rtc.state = 0x00#8
  · by_cases h8 : s.rtc.numWbits + 1#7 = 8#7
    · have h1 : rtcWriteBit b s =
          dispatchCommand ((appendBit b s.rtc).wbits.extractLsb' 0 8) s := by
        simp [rtcWriteBit, h0, commandPhaseStep, h8]; rfl
      have h2 : rtcWriteBit b s' =
          dispatchCommand ((appendBit b s.rtc).wbits.extractLsb' 0 8) s' := by
        rw [hr] at h0 h8 ⊢
        simp [rtcWriteBit, h0, commandPhaseStep, h8]; rfl
      rw [h1, h2]
      exact dispatchCommand_agree _ hm hn
    · refine .inl ⟨appendBit b s.rtc, by simp [rtcWriteBit, h0, commandPhaseStep, h8], ?_⟩
      rw [hr] at h0 h8 ⊢
      simp [rtcWriteBit, h0, commandPhaseStep, h8]
  · cases hl : payloadLength s.rtc.state with
    | none =>
      refine .inl ⟨appendBit b s.rtc, by simp [rtcWriteBit, h0, hl, lockedStep], ?_⟩
      rw [hr] at h0 hl ⊢
      simp [rtcWriteBit, h0, hl, lockedStep]
    | some n =>
      by_cases hn : s.rtc.numWbits + 1#7 = n
      · refine .inl ⟨Rtc.reset, by simp [rtcWriteBit, h0, hl, payloadPhaseStep, hn], ?_⟩
        rw [hr] at h0 hl hn
        simp [rtcWriteBit, h0, hl, payloadPhaseStep, hn]
      · refine .inl ⟨appendBit b s.rtc, by simp [rtcWriteBit, h0, hl, payloadPhaseStep, hn], ?_⟩
        rw [hr] at h0 hl hn ⊢
        simp [rtcWriteBit, h0, hl, payloadPhaseStep, hn]

/-- `RTC_ReadBit` never changes `state` (41_rtc_serial.md R111). -/
theorem afterReadBit_state (r : Rtc) : (afterReadBit r).state = r.state := by
  rw [afterReadBit_eq]

/-- With nothing queued every further bit read is 0. -/
theorem readBits_of_idle (k : Nat) :
    ∀ s : State, s.rtc.numRbits = 0#7 → readBits k s = List.replicate k 0#1 := by
  induction k with
  | zero => intro s _; rfl
  | succ k ih =>
    intro s h
    simp only [readBits, List.replicate_succ]
    rw [ih _ (by simp [afterReadBit, h]), outgoingBit_eq, if_pos h]

/-- Everything a step can do: what the next input's request is, and the state after it. -/
theorem step_cases {s t : State} (h : step s = .next t) :
    ∃ input rest, s.pending = input :: rest ∧
      (let s' := { s with pending := rest, now := input.time }
      (input.request = .init ∧ execInit s' = .next t) ∨
      (s.initialised = true ∧ ∃ a, input.request = .read a ∧ t = respond (readHalfword s' a) s') ∨
      (s.initialised = true ∧ ∃ v, input.request = .write dataOffset v ∧ writeData v s' = .next t) ∨
      (s.initialised = true ∧ ∃ v, input.request = .write dirOffset v ∧
        t = setDirection (lowLines v) s') ∨
      (s.initialised = true ∧ ∃ v, input.request = .write enOffset v ∧
        t = setReadEnabled (lowBit v) s') ∨
      (s.initialised = true ∧ ∃ a v, input.request = .write a v ∧ unmapped a = true ∧ t = s')) := by
  obtain ⟨input, rest, i, hp, hd, hx⟩ := step_next h
  refine ⟨input, rest, hp, ?_⟩
  cases hr : input.request with
  | init => rw [hr] at hd; cases hd; exact .inl ⟨rfl, hx⟩
  | foreign w b a => rw [hr] at hd; cases hd
  | read a =>
    rw [hr] at hd; cases hd
    by_cases hi : s.initialised = true
    · have := exec_read { s with pending := rest, now := input.time } a hi
      rw [show decode (.reqRead a) = decodeRead a from rfl, this] at hx; cases hx
      exact .inr (.inl ⟨hi, a, rfl, rfl⟩)
    · have := exec_read_uninitialised { s with pending := rest, now := input.time } a
        (by simpa using hi)
      rw [show decode (.reqRead a) = decodeRead a from rfl, this] at hx; cases hx
  | write a v =>
    rw [hr] at hd; cases hd
    simp only [decode, decodeWrite] at hx
    right; right
    split at hx
    · subst a; have := whenInitialised_next hx; exact .inl ⟨this.1, v, rfl, this.2⟩
    split at hx
    · subst a; have := whenInitialised_next hx
      exact .inr (.inl ⟨this.1, v, rfl, by have := this.2; cases this; rfl⟩)
    split at hx
    · subst a; have := whenInitialised_next hx
      exact .inr (.inr (.inl ⟨this.1, v, rfl, by have := this.2; cases this; rfl⟩))
    · have := whenInitialised_next hx
      exact .inr (.inr (.inr ⟨this.1, a, v, rfl, by simp_all [unmapped],
        by have := this.2; cases this; rfl⟩))

end Sys2Proof.Machine
end

