-- ==== Sys2Proof/Laws/Bounds.lean ====
section
/-! SUPPORT. The counter bounds of each phase (10_state.md R42), and the operations that keep them. -/

namespace Sys2Proof.Machine

theorem phaseBounds_idle {r : Rtc} (h : r.state = 0x00#8) :
    PhaseBounds r ↔ r.numWbits.toNat ≤ 7 ∧ r.numRbits.toNat ≤ 56 := by
  unfold PhaseBounds; rw [h]; rfl

theorem phaseBounds_awaiting {r : Rtc} {n : Count} (h : payloadLength r.state = some n) :
    PhaseBounds r ↔ r.numWbits.toNat < n.toNat ∧ r.numRbits = 0#7 := by
  unfold PhaseBounds; rw [phase_awaiting h]

theorem phaseBounds_locked {r : Rtc} (h : Locked r) : PhaseBounds r ↔ r.numRbits = 0#7 := by
  unfold PhaseBounds; rw [phase_locked h]

theorem reset_bounds (mode : UnknownCmdMode) :
    PhaseBounds Rtc.reset ∧ LegalState mode Rtc.reset.state :=
  ⟨(phaseBounds_idle rfl).2 (by decide), by decide, fun _ => .inl rfl⟩

/-- An unrecognised byte locks: it is not 0 and has no payload length, and it is no byte that its
dispatch takes back to idle. -/
theorem unrecognised_locks : ∀ cmd : Byte, unrecognised cmd = true →
    cmd ≠ 0x00#8 ∧ payloadLength cmd = none ∧
      (cmd ≠ 0x60#8 ∧ cmd ≠ 0x61#8 ∧ cmd ≠ 0x63#8 ∧ cmd ≠ 0x65#8 ∧ cmd ≠ 0x67#8) := by
  decide

/-- Appending a bit that completes neither a command nor a payload keeps the bounds. -/
theorem appendBit_bounds (b : Bit) (r : Rtc) (hb : PhaseBounds r)
    (h8 : r.state = 0x00#8 → r.numWbits + 1#7 ≠ 8#7)
    (hp : ∀ n, payloadLength r.state = some n → r.numWbits + 1#7 ≠ n) :
    PhaseBounds (appendBit b r) := by
  by_cases h0 : r.state = 0#8
  · rw [phaseBounds_idle h0] at hb
    rw [phaseBounds_idle (by simpa using h0)]
    have h8 := h8 h0
    simp only [appendBit_numWbits, appendBit_numRbits]
    refine ⟨?_, hb.2⟩
    bv_omega
  · cases hl : payloadLength r.state with
    | none =>
      rw [phaseBounds_locked ⟨h0, hl⟩] at hb
      rw [phaseBounds_locked ⟨by simpa using h0, by simpa using hl⟩]; simpa using hb
    | some n =>
      have hn := hp n hl
      rw [phaseBounds_awaiting hl] at hb
      rw [phaseBounds_awaiting (n := n) (by simpa using hl)]
      simp only [appendBit_numWbits, appendBit_numRbits]
      refine ⟨?_, hb.2⟩
      bv_omega

/-- A read bit keeps the bounds. -/
theorem afterReadBit_bounds (r : Rtc) (hb : PhaseBounds r) : PhaseBounds (afterReadBit r) := by
  by_cases h : r.numRbits = 0#7
  · simpa [afterReadBit, h] using hb
  · rw [afterReadBit_eq, if_neg h]
    by_cases h0 : r.state = 0#8
    · rw [phaseBounds_idle h0] at hb
      refine (phaseBounds_idle (by exact h0)).2 ⟨hb.1, ?_⟩
      show (r.numRbits - 1#7).toNat ≤ 56
      bv_omega
    · cases hl : payloadLength r.state with
      | none => rw [phaseBounds_locked ⟨h0, hl⟩] at hb; exact absurd hb h
      | some n => rw [phaseBounds_awaiting hl] at hb; exact absurd hb.2 h

end Sys2Proof.Machine
end

