-- ==== Sys2Proof/Laws/Encoding.lean ====
section
/-! SUPPORT. The byte frames and their reassembly. -/

namespace Sys2Proof

/-- Four bytes of an offset put together again. -/
theorem addr_of_bytes (a : Addr) :
    (a.extractLsb' 24 8 ++ a.extractLsb' 16 8 ++ a.extractLsb' 8 8 ++ a.extractLsb' 0 8 :
      BitVec 32) = a := by
  apply BitVec.eq_of_getLsbD_eq
  intro i hi
  repeat rw [BitVec.getLsbD_append]
  repeat rw [BitVec.getLsbD_extractLsb']
  split
  · simp [*]
  split
  · rw [show 8 + (i - 8) = i by omega]; simp [*]
  split
  · rw [show 16 + (i - 8 - 8) = i by omega]; simp [*]
  · have : i - 8 - 8 - 8 < 8 := by omega
    rw [show 24 + (i - 8 - 8 - 8) = i by omega]; simp [this]

/-- Two bytes of a value put together again. -/
theorem value_of_bytes (v : HalfWord) :
    (v.extractLsb' 8 8 ++ v.extractLsb' 0 8 : BitVec 16) = v := by
  apply BitVec.eq_of_getLsbD_eq
  intro i hi
  repeat rw [BitVec.getLsbD_append]
  repeat rw [BitVec.getLsbD_extractLsb']
  split
  · simp [*]
  · have : i - 8 < 8 := by omega
    rw [show 8 + (i - 8) = i by omega]; simp [this]

/-- A record is read back from its own frame. -/
theorem parseFrame_bytes (e : Encoded) : parseFrame e.bytes = .ok e := by
  cases e <;> simp [Encoded.bytes, parseFrame, addr_of_bytes, value_of_bytes]

end Sys2Proof
end

