-- ==== Sys2Proof/Laws/PerInstr.lean ====
section
/-! SUPPORT. Laws about every instruction as syntax, one lemma per constructor. -/

namespace Sys2Proof.Laws.EncodeDecode

/-- A well-formed instruction is what the decoder reads from its own encoding. -/
def Statement (i : Instr) : Prop :=
  i.wf = true → decode (encode i) = i

theorem rdData : Statement .rdData := fun _ => rfl
theorem rdDir : Statement .rdDir := fun _ => rfl
theorem rdEn : Statement .rdEn := fun _ => rfl
theorem rdOther (addr : Addr) : Statement (.rdOther addr) := by
  intro h
  simp_all [Instr.wf, unmapped, decode, encode, decodeRead]
theorem wrData (value : HalfWord) : Statement (.wrData value) := fun _ => rfl
theorem wrDir (value : HalfWord) : Statement (.wrDir value) := fun _ => rfl
theorem wrEn (value : HalfWord) : Statement (.wrEn value) := fun _ => rfl
theorem wrOther (addr : Addr) (value : HalfWord) : Statement (.wrOther addr value) := by
  intro h
  simp_all [Instr.wf, unmapped, decode, encode, decodeWrite]
theorem init : Statement .init := fun _ => rfl
theorem cmdReset (rw : Bit) : Statement (.cmdReset rw) := by
  revert rw; unfold Statement; decide
theorem cmdWrStatus : Statement .cmdWrStatus := fun _ => rfl
theorem cmdRdStatus : Statement .cmdRdStatus := fun _ => rfl
theorem cmdWrDatetime : Statement .cmdWrDatetime := fun _ => rfl
theorem cmdRdDatetime : Statement .cmdRdDatetime := fun _ => rfl
theorem cmdWrTime : Statement .cmdWrTime := fun _ => rfl
theorem cmdRdTime : Statement .cmdRdTime := fun _ => rfl
theorem cmdNull : Statement .cmdNull := fun _ => rfl
theorem cmdUnrecognised (cmd : Byte) : Statement (.cmdUnrecognised cmd) := by
  revert cmd; unfold Statement; decide

end Sys2Proof.Laws.EncodeDecode
end

