-- ==== Sys2Proof/Tests/Slice0.lean ====
section
/-! SUPPORT. Tests: the well-formedness check, the decoding of words written out from 30_encoding.md R64
and R69, one step of each instruction with the expected value of 95_test_vectors.md, and for each
obligation with hypotheses a state and operands that meet them. -/

namespace Sys2Proof.Tests

open Sys2Proof.Machine

/-- The draw of 95_test_vectors.md W5: `TIME 24 3 15 5 13 7 42`. -/
def w5 : TimeAnswer := ⟨24, 3, 15, 5, 13, 7, 42⟩

/-- The draw of W5 as a `DateTime`. -/
def w5Draw : DateTime := ⟨24, 3, 15, 5, 13, 7, 42⟩

/-- An initialised state with the given registers, the draw of W5 and the given requests to come. -/
def mk (gpio : Gpio) (rtc : Rtc) (requests : List Request) : State :=
  { State.reset with gpio := gpio, rtc := rtc, pending := inputsAt w5 requests, now := w5 }

/-- What a test looks at: the registers and the responses, or nothing where there is no next state. -/
def seen : Result → Option (Gpio × Rtc × List HalfWord)
  | .next t => some (t.gpio, t.rtc, t.responses)
  | _ => none

/-- An idle RTC with everything clear. -/
def idle : Rtc := ⟨0, 0, 0, 0, 0x00⟩

/-- An idle RTC with the response of 0x63 queued. -/
def status : Rtc := ⟨0x40, 8, 0, 0, 0x00⟩

/-- An RTC locked by 0x12 that has seen eight more bits (C16). -/
def locked : Rtc := ⟨0, 0, 0x63, 8, 0x12⟩

/-! Well-formedness: the check refuses an operand that an earlier row of the format matches. -/

theorem test_wf_refuses_mapped_read :
    (Instr.rdOther 0xC4).wf = false ∧ (Instr.rdOther 0xC6).wf = false ∧
      (Instr.rdOther 0xC8).wf = false ∧ (Instr.rdOther 0xC5).wf = true := by decide

theorem test_wf_refuses_mapped_write :
    (Instr.wrOther 0xC4 7).wf = false ∧ (Instr.wrOther 0xC6 7).wf = false ∧
      (Instr.wrOther 0xC8 7).wf = false ∧ (Instr.wrOther 0xCA 7).wf = true := by decide

theorem test_wf_refuses_listed_command :
    (Instr.cmdUnrecognised 0x00).wf = false ∧ (Instr.cmdUnrecognised 0x60).wf = false ∧
      (Instr.cmdUnrecognised 0x63).wf = false ∧ (Instr.cmdUnrecognised 0x67).wf = false := by decide

theorem test_wf_admits_unrecognised_bounds :
    (Instr.cmdUnrecognised 0x01).wf = true ∧ (Instr.cmdUnrecognised 0x5F).wf = true ∧
      (Instr.cmdUnrecognised 0x68).wf = true ∧ (Instr.cmdUnrecognised 0xFF).wf = true := by decide

/-! Decoding, one word for each constructor, written out from R64 (the offset's 32 bits, low byte
first) and R69 (the byte, bit by bit). -/

theorem test_decode_reads :
    decodeBytes [0b11000100, 0, 0, 0] = .ok .rdData ∧
      decodeBytes [0b11000110, 0, 0, 0] = .ok .rdDir ∧
      decodeBytes [0b11001000, 0, 0, 0] = .ok .rdEn ∧
      decodeBytes [0b11000101, 0, 0, 0] = .ok (.rdOther 0xC5) ∧
      decodeBytes [0b11000100, 1, 0, 0] = .ok (.rdOther 0x1C4) := by decide

theorem test_decode_writes :
    decodeBytes [0b11000100, 0, 0, 0, 0b00000101, 0] = .ok (.wrData 0x0005) ∧
      decodeBytes [0b11000110, 0, 0, 0, 0b11110101, 0b11111111] = .ok (.wrDir 0xFFF5) ∧
      decodeBytes [0b11001000, 0, 0, 0, 0b00000011, 0] = .ok (.wrEn 0x0003) ∧
      decodeBytes [0b11000100, 0, 0, 0b00001000, 7, 0] = .ok (.wrOther 0x080000C4 7) := by decide

theorem test_decode_init : decodeBytes [] = .ok .init := by decide

theorem test_decode_commands :
    decodeBytes [0b01100000] = .ok (.cmdReset 0) ∧ decodeBytes [0b01100001] = .ok (.cmdReset 1) ∧
      decodeBytes [0b01100010] = .ok .cmdWrStatus ∧ decodeBytes [0b01100011] = .ok .cmdRdStatus ∧
      decodeBytes [0b01100100] = .ok .cmdWrDatetime ∧ decodeBytes [0b01100101] = .ok .cmdRdDatetime ∧
      decodeBytes [0b01100110] = .ok .cmdWrTime ∧ decodeBytes [0b01100111] = .ok .cmdRdTime ∧
      decodeBytes [0b00000000] = .ok .cmdNull ∧
      decodeBytes [0b00010010] = .ok (.cmdUnrecognised 0x12) := by decide

theorem test_decode_rejects_by_name :
    decodeBytes [0xC4, 0] = .error (.noFormat 2) ∧
      decodeBytes [0xC4, 0, 0, 0, 5] = .error (.noFormat 5) ∧
      decodeBytes [0xC4, 0, 0, 0, 5, 0, 0] = .error (.noFormat 7) := by decide

theorem test_decode_table_words :
    decodeTableWord 32 0xC6 = some .rdDir ∧ decodeTableWord 48 0x0005000000C4 = some (.wrData 5) ∧
      decodeTableWord 8 0x65 = some .cmdRdDatetime ∧ decodeTableWord 0 0 = some .init ∧
      decodeTableWord 16 0 = none := by decide

/-! Bus requests: V1, V7, V8, V6, V9, V10, V19, V20, V14, V15, V5, I1 and the rows E1 to E14. -/

theorem test_rdData_gate :
    seen (exec .rdData (mk ⟨8, 15, 0⟩ idle [])) = some (⟨8, 15, 0⟩, idle, [0x0000]) ∧
      seen (exec .rdData (mk ⟨8, 15, 1⟩ idle [])) = some (⟨8, 15, 1⟩, idle, [0x0008]) := by decide

theorem test_rdDir :
    seen (exec .rdDir (mk ⟨8, 15, 1⟩ idle [])) = some (⟨8, 15, 1⟩, idle, [0x000F]) := by decide

theorem test_rdEn :
    seen (exec .rdEn (mk ⟨8, 15, 1⟩ idle [])) = some (⟨8, 15, 1⟩, idle, [0x0001]) := by decide

theorem test_rdOther :
    seen (exec (.rdOther 0xC5) (mk ⟨8, 15, 1⟩ idle [])) = some (⟨8, 15, 1⟩, idle, [0x0000]) := by decide

theorem test_wrData_sends :
    seen (exec (.wrData 0x0005) (mk ⟨0, 7, 1⟩ idle [])) = some (⟨5, 7, 1⟩, ⟨0, 0, 0, 1, 0⟩, []) ∧
      seen (exec (.wrData 0x0007) (mk ⟨0, 7, 1⟩ idle [])) = some (⟨7, 7, 1⟩, ⟨0, 0, 1, 1, 0⟩, []) ∧
      seen (exec (.wrData 0x000D) (mk ⟨0, 7, 1⟩ idle [])) = some (⟨13, 7, 1⟩, ⟨0, 0, 0, 1, 0⟩, []) ∧
      seen (exec (.wrData 0x0005) (mk ⟨1, 7, 1⟩ status [])) = some (⟨5, 7, 1⟩, status, []) := by decide

theorem test_wrData_fetches :
    seen (exec (.wrData 0x0007) (mk ⟨0, 5, 1⟩ status [])) =
        some (⟨5, 5, 1⟩, { status with numRbits := 7 }, []) ∧
      seen (exec (.wrData 0x0005) (mk ⟨4, 5, 1⟩ { status with numRbits := 7 } [])) =
        some (⟨7, 5, 1⟩, { status with numRbits := 6 }, []) ∧
      seen (exec (.wrData 0x0001) (mk ⟨0, 5, 1⟩ status [])) = some (⟨1, 5, 1⟩, status, []) := by decide

theorem test_wrDir :
    seen (exec (.wrDir 0x1234) (mk ⟨5, 0, 1⟩ status [])) = some (⟨5, 4, 1⟩, status, []) ∧
      seen (exec (.wrDir 0xFFF0) (mk ⟨5, 7, 1⟩ status [])) = some (⟨5, 0, 1⟩, status, []) := by decide

theorem test_wrEn :
    seen (exec (.wrEn 0xFFFE) (mk ⟨8, 15, 1⟩ status [])) = some (⟨8, 15, 0⟩, status, []) ∧
      seen (exec (.wrEn 0x0003) (mk ⟨8, 15, 0⟩ status [])) = some (⟨8, 15, 1⟩, status, []) := by decide

theorem test_wrOther :
    seen (exec (.wrOther 0xC5 0x000F) (mk ⟨1, 2, 0⟩ status [])) = some (⟨1, 2, 0⟩, status, []) := by decide

theorem test_init :
    seen (exec .init (mk ⟨7, 5, 1⟩ locked [])) = some (⟨0, 0, 0⟩, idle, []) := by decide

theorem test_request_before_init_is_refused :
    step { State.powerOn ⟨1, 2, 1⟩ status .lockup with pending := inputsAt w5 [.read 0xC4] } =
      .refused .notInitialised := by rfl

theorem test_other_width_is_refused :
    step (mk ⟨0, 0, 0⟩ idle [.foreign .byte true 0xC4]) = .refused (.accessWidth .byte) := by rfl

/-! Commands: the rows S1 to S18 and C1 to C21. -/

theorem test_cmdReset :
    seen (rtcWriteBit 0 (mk ⟨5, 7, 1⟩ ⟨0, 0, 0x30, 7, 0⟩ [])) = some (⟨5, 7, 1⟩, idle, []) ∧
      seen (rtcWriteBit 1 (mk ⟨7, 7, 1⟩ ⟨0x40, 3, 0x30, 7, 0⟩ [])) = some (⟨7, 7, 1⟩, idle, []) := by decide

theorem test_cmdWrStatus :
    seen (rtcWriteBit 0 (mk ⟨5, 7, 1⟩ ⟨0x40, 3, 0x31, 7, 0⟩ [])) =
        some (⟨5, 7, 1⟩, ⟨0, 0, 0, 0, 0x62⟩, []) ∧
      seen (rtcWriteBit 1 (mk ⟨7, 7, 1⟩ ⟨0, 0, 0x7F, 7, 0x62⟩ [])) = some (⟨7, 7, 1⟩, idle, []) := by decide

theorem test_cmdRdStatus :
    seen (rtcWriteBit 1 (mk ⟨7, 7, 1⟩ ⟨0, 0, 0x31, 7, 0⟩ [])) = some (⟨7, 7, 1⟩, status, []) := by decide

theorem test_cmdWrDatetime :
    seen (rtcWriteBit 0 (mk ⟨5, 7, 1⟩ ⟨0, 0, 0x32, 7, 0⟩ [])) =
        some (⟨5, 7, 1⟩, ⟨0, 0, 0, 0, 0x64⟩, []) ∧
      seen (rtcWriteBit 0 (mk ⟨5, 7, 1⟩ ⟨0, 0, 0, 55, 0x64⟩ [])) = some (⟨5, 7, 1⟩, idle, []) := by decide

theorem test_cmdRdDatetime :
    seen (exec .cmdRdDatetime (mk ⟨7, 7, 1⟩ idle [])) =
      some (⟨7, 7, 1⟩, ⟨0x0024031505130742, 56, 0, 0, 0⟩, []) := by decide

theorem test_cmdWrTime :
    seen (rtcWriteBit 0 (mk ⟨5, 7, 1⟩ ⟨0, 0, 0x33, 7, 0⟩ [])) =
        some (⟨5, 7, 1⟩, ⟨0, 0, 0, 0, 0x66⟩, []) ∧
      seen (rtcWriteBit 1 (mk ⟨7, 7, 1⟩ ⟨0, 0, 0x7FFFFF, 23, 0x66⟩ [])) =
        some (⟨7, 7, 1⟩, idle, []) := by decide

theorem test_cmdRdTime :
    seen (exec .cmdRdTime (mk ⟨7, 7, 1⟩ idle [])) =
      some (⟨7, 7, 1⟩, ⟨0x130742, 24, 0, 0, 0⟩, []) := by decide

theorem test_cmdNull :
    seen (rtcWriteBit 0 (mk ⟨5, 7, 1⟩ ⟨0x40, 5, 0, 7, 0⟩ [])) = some (⟨5, 7, 1⟩, idle, []) := by decide

theorem test_cmdUnrecognised_locks :
    seen (rtcWriteBit 0 (mk ⟨5, 7, 1⟩ ⟨0x40, 5, 9, 7, 0⟩ [])) =
        some (⟨5, 7, 1⟩, ⟨0, 0, 0, 0, 0x12⟩, []) ∧
      seen (rtcWriteBit 1 (mk ⟨7, 7, 1⟩ locked [])) =
        some (⟨7, 7, 1⟩, ⟨0, 0, 0xC7, 9, 0x12⟩, []) ∧
      seen (rtcWriteBit 0 (mk ⟨5, 7, 1⟩ ⟨0, 0, 0xFFFFFFFFFFFFFFFF, 127, 0x12⟩ [])) =
        some (⟨5, 7, 1⟩, ⟨0, 0, 0xFFFFFFFFFFFFFFFE, 0, 0x12⟩, []) := by decide

theorem test_cmdUnrecognised_ignored :
    seen (rtcWriteBit 0 { mk ⟨5, 7, 1⟩ ⟨0x40, 5, 9, 7, 0⟩ [] with mode := .ignore }) =
      some (⟨5, 7, 1⟩, idle, []) := by decide

theorem test_rtcReadBit_bits :
    outgoingBit status = 0 ∧ outgoingBit { status with numRbits := 7 } = 1 ∧
      outgoingBit { status with numRbits := 0 } = 0 ∧ outgoingBit ⟨0x40, 5, 1, 1, 0⟩ = 0 ∧
      afterReadBit { status with numRbits := 0 } = { status with numRbits := 0 } := by decide

theorem test_bcd_vectors :
    bcd 0 = 0x00 ∧ bcd 9 = 0x09 ∧ bcd 10 = 0x10 ∧ bcd 42 = 0x42 ∧ bcd 99 = 0x99 ∧ decimal 0x59 = 59 ∧
      decimal 0x0A = 10 ∧ decimal 0x1F = 25 ∧ decimal 0xFF = 165 := by decide

theorem test_time_boundary :
    admitTime ⟨99, 99, 99, 99, 99, 99, 99⟩ ≠ none ∧ admitTime ⟨0, 0, 0, 0, 0, 0, 100⟩ = none := by decide

/-! Witnesses: for each obligation with hypotheses, a state and operands that meet all of them, each
clause at the ends of its range. -/

theorem test_witness_StepRunsDecodedRequest :
    (mk ⟨0, 7, 1⟩ idle [.write 0xC4 5]).pending = ⟨.write 0xC4 5, w5⟩ :: [] ∧
      decodeRequest (.write 0xC4 5) = .ok (.wrData 5) := by decide

/-- Each outcome occurs: the two refusals, a next state, and a sample outside the domain. -/
theorem test_witness_OutcomeKinds :
    step (mk ⟨0, 0, 0⟩ idle [.foreign .byte false 0xC4]) = .refused (.accessWidth .byte) ∧
      step (mk ⟨0, 0, 0⟩ idle [.foreign .word true 0xC4]) = .refused (.accessWidth .word) ∧
      decodeRequest (.read 0xC4) = .ok .rdData ∧
      step { mk ⟨0, 0, 0⟩ idle [.read 0xC4] with initialised := false } = .refused .notInitialised ∧
      (∃ t, step { mk ⟨1, 2, 1⟩ locked [.init] with initialised := false } = .next t) ∧
      (∃ t, step (mk ⟨0, 0, 0⟩ idle [.read 0xC4]) = .next t) ∧
      admitTime ⟨24, 3, 15, 5, 13, 7, 100⟩ = none ∧
      step { mk ⟨4, 7, 1⟩ ⟨0, 0, 0x32, 7, 0⟩ [] with
        pending := [⟨.write 0xC4 7, ⟨24, 3, 15, 5, 13, 7, 100⟩⟩] } = .refused .timeOutOfRange :=
  ⟨rfl, rfl, rfl, rfl, ⟨_, rfl⟩, ⟨_, rfl⟩, by decide, rfl⟩

theorem test_witness_ReadsReturnTheirRegister :
    State.reset.initialised = true ∧ (0xC5#32 : Addr) ≠ 0xC4#32 ∧ (0xC5#32 : Addr) ≠ 0xC6#32 ∧
      (0xC5#32 : Addr) ≠ 0xC8#32 := by decide

theorem test_witness_EveryOffsetReadsItsWindowValue :
    (mk ⟨8, 15, 1⟩ idle []).initialised = true := by decide

theorem test_witness_DirectionWriteStores : (mk ⟨8, 15, 1⟩ idle []).initialised = true := by decide

theorem test_witness_EnableWriteStores : (mk ⟨8, 15, 1⟩ idle []).initialised = true := by decide

theorem test_witness_UnmappedWriteHasNoEffect :
    (mk ⟨8, 15, 1⟩ idle []).initialised = true ∧ (0x080000C4#32 : Addr) ≠ 0xC4#32 ∧
      (0x080000C4#32 : Addr) ≠ 0xC6#32 ∧ (0x080000C4#32 : Addr) ≠ 0xC8#32 := by decide

/-- A falling edge, CS low, and SCK held (E10, E2, E9). -/
theorem test_witness_DataWriteWithoutEdgeOnlyStores :
    (mk ⟨5, 7, 1⟩ idle []).initialised = true ∧ ¬ ClocksABit (mk ⟨5, 7, 1⟩ idle []) 4 ∧
      ¬ ClocksABit (mk ⟨0, 7, 1⟩ idle []) 1 ∧ ¬ ClocksABit (mk ⟨1, 7, 1⟩ idle []) 5 := by
  unfold ClocksABit; decide

/-- From SCK low and from SCK high. -/
theorem test_witness_HeldClockMovesNoFurtherBit :
    (mk ⟨4, 7, 1⟩ idle [.write 0xC4 5, .write 0xC4 7]).initialised = true ∧
      (5#16).getLsbD 0 = true ∧ (∀ v ∈ [7#16], v.getLsbD 0 = true) ∧
      (mk ⟨4, 7, 1⟩ idle [.write 0xC4 5, .write 0xC4 7]).pending =
        inputsAt w5 ((5#16 :: [7#16]).map (Request.write dataOffset)) ++ [] ∧
      (∃ t, runSteps 1 (mk ⟨4, 7, 1⟩ idle [.write 0xC4 5, .write 0xC4 7]) = .next t) ∧
      (mk ⟨5, 7, 1⟩ idle [.write 0xC4 5, .write 0xC4 7]).gpio.data.getLsbD 0 = true :=
  ⟨rfl, rfl, fun v h => by rw [List.mem_singleton.1 h]; rfl, rfl, ⟨_, rfl⟩, rfl⟩

theorem test_witness_EdgeSendsTheWrittenBit :
    (mk ⟨4, 2, 0⟩ idle []).initialised = true ∧ ClocksABit (mk ⟨4, 2, 0⟩ idle []) 7 ∧
      (mk ⟨4, 2, 0⟩ idle []).gpio.direction.getLsbD 1 = true := by
  unfold ClocksABit; decide

/-- With a bit queued and with none. -/
theorem test_witness_EdgeFetchesTheNextBit :
    (mk ⟨4, 13, 0⟩ status []).initialised = true ∧ ClocksABit (mk ⟨4, 13, 0⟩ status []) 7 ∧
      (mk ⟨4, 13, 0⟩ status []).gpio.direction.getLsbD 1 = false ∧ status.numRbits ≠ 0 ∧
      ClocksABit (mk ⟨4, 13, 0⟩ idle []) 7 ∧ idle.numRbits = 0 := by
  unfold ClocksABit; decide

theorem test_witness_DataWriteCompletesAndFrames :
    (mk ⟨4, 7, 0⟩ ⟨0, 0, 0x32, 7, 0⟩ []).initialised = true ∧
      (admitTime (mk ⟨4, 7, 0⟩ ⟨0, 0, 0x32, 7, 0⟩ []).now).isSome = true ∧
      (mk ⟨4, 7, 0⟩ ⟨0, 0, 0x32, 7, 0⟩ []).gpio.direction.getLsbD 1 = true := by decide

theorem test_witness_OtherOffsetsReadAsBefore :
    (∃ t, exec (decodeRead 0xC5) (mk ⟨4, 7, 1⟩ idle []) = .next t) ∧ unmapped 0xC5 = true ∧
      (∃ t, exec (.wrOther 0xC5 7) (mk ⟨4, 7, 1⟩ idle []) = .next t) ∧
      (∃ t, exec (.wrDir 7) (mk ⟨4, 7, 1⟩ idle []) = .next t) ∧ (0xC4#32 : Addr) ≠ dirOffset ∧
      (∃ t, exec (.wrData 7) (mk ⟨4, 7, 1⟩ idle []) = .next t) ∧ (0xC6#32 : Addr) ≠ dataOffset ∧
      (∃ t, exec (.wrEn 2) (mk ⟨4, 7, 1⟩ idle []) = .next t) ∧ (2#16).getLsbD 0 = false ∧
      (∃ t, exec (.wrEn 3) (mk ⟨4, 7, 1⟩ idle []) = .next t) ∧ (3#16).getLsbD 0 = true ∧
      (mk ⟨4, 7, 1⟩ idle []).gpio.readEnabled = 1#1 :=
  ⟨⟨_, rfl⟩, by decide, ⟨_, rfl⟩, ⟨_, rfl⟩, by decide, ⟨_, rfl⟩, by decide, ⟨_, rfl⟩, by decide,
    ⟨_, rfl⟩, by decide, rfl⟩

theorem test_witness_WritesIgnoreTheReadEnable :
    unmapped 0xC5 = true ∧ (mk ⟨4, 7, 0⟩ status []).initialised = true ∧
      (mk ⟨4, 7, 0⟩ status []).gpio.readEnabled = 0#1 := by decide

/-- Directions 0111 and 0010 agree in bit SIO, and so do 0101 and 1000. -/
theorem test_witness_OnlySioDirectionActs :
    (0b0010#4).getLsbD 1 = (mk ⟨4, 0b0111, 1⟩ idle []).gpio.direction.getLsbD 1 ∧
      (0b1000#4).getLsbD 1 = (mk ⟨4, 0b0101, 1⟩ idle []).gpio.direction.getLsbD 1 ∧
      unmapped 0xC5 = true ∧ (0xC4#32 : Addr) ≠ 0xC6#32 := by decide

/-- At the first bit, the seventh and the eighth. -/
theorem test_witness_CommandPhaseRunsTheEighthBit :
    (mk ⟨0, 7, 1⟩ idle []).rtc.state = 0x00#8 ∧
      (mk ⟨0, 7, 1⟩ idle []).rtc.numWbits + 1#7 ≠ 8#7 ∧
      (mk ⟨0, 7, 1⟩ ⟨0, 0, 0x18, 6, 0⟩ []).rtc.numWbits + 1#7 ≠ 8#7 ∧
      (mk ⟨0, 7, 1⟩ ⟨0, 0, 0x31, 7, 0⟩ []).rtc.numWbits + 1#7 = 8#7 := by decide

/-- Each payload one bit before its last bit and at its last bit. -/
theorem test_witness_PayloadPhaseDiscardsAtItsLength :
    (mk ⟨0, 7, 1⟩ ⟨0, 0, 0, 7, 0x62⟩ []).rtc.state = 0x62#8 ∧
      (mk ⟨0, 7, 1⟩ ⟨0, 0, 0, 7, 0x62⟩ []).rtc.numWbits + 1#7 = 8#7 ∧
      (mk ⟨0, 7, 1⟩ ⟨0, 0, 0, 6, 0x62⟩ []).rtc.numWbits + 1#7 ≠ 8#7 ∧
      (mk ⟨0, 7, 1⟩ ⟨0, 0, 0, 55, 0x64⟩ []).rtc.state = 0x64#8 ∧
      (mk ⟨0, 7, 1⟩ ⟨0, 0, 0, 55, 0x64⟩ []).rtc.numWbits + 1#7 = 56#7 ∧
      (mk ⟨0, 7, 1⟩ ⟨0, 0, 0, 54, 0x64⟩ []).rtc.numWbits + 1#7 ≠ 56#7 ∧
      (mk ⟨0, 7, 1⟩ ⟨0, 0, 0, 23, 0x66⟩ []).rtc.state = 0x66#8 ∧
      (mk ⟨0, 7, 1⟩ ⟨0, 0, 0, 23, 0x66⟩ []).rtc.numWbits + 1#7 = 24#7 ∧
      (mk ⟨0, 7, 1⟩ ⟨0, 0, 0, 22, 0x66⟩ []).rtc.numWbits + 1#7 ≠ 24#7 := by decide

theorem test_witness_LockedPhaseOnlyShifts :
    (mk ⟨0, 7, 1⟩ locked []).rtc.state ≠ 0x00#8 ∧ (mk ⟨0, 7, 1⟩ locked []).rtc.state ≠ 0x62#8 ∧
      (mk ⟨0, 7, 1⟩ locked []).rtc.state ≠ 0x64#8 ∧
      (mk ⟨0, 7, 1⟩ locked []).rtc.state ≠ 0x66#8 := by decide

theorem test_witness_EightBitsAssembleTheCommand :
    (mk ⟨0, 7, 1⟩ status []).rtc.state = 0x00#8 ∧ (mk ⟨0, 7, 1⟩ status []).rtc.numWbits = 0#7 := by decide

theorem test_witness_ResetCommandClearsTheRtc :
    ((0x60#8 : Byte) = 0x60#8 ∨ (0x60#8 : Byte) = 0x61#8) ∧
      ((0x61#8 : Byte) = 0x60#8 ∨ (0x61#8 : Byte) = 0x61#8) := by decide

/-- A payload shorter than its length and one of its length, for each command. -/
theorem test_witness_WriteCommandsTakeExactlyTheirPayload :
    (Instr.cmdWrStatus = .cmdWrStatus ∧ (0x62#8 : Byte) = 0x62#8 ∧ (List.replicate 7 1#1).length < 8 ∧
        (List.replicate 8 1#1).length = 8) ∧
      (Instr.cmdWrDatetime = .cmdWrDatetime ∧ (0x64#8 : Byte) = 0x64#8 ∧
        (List.replicate 55 1#1).length < 56 ∧ (List.replicate 56 1#1).length = 56) ∧
      (Instr.cmdWrTime = .cmdWrTime ∧ (0x66#8 : Byte) = 0x66#8 ∧
        (List.replicate 23 1#1).length < 24 ∧ (List.replicate 24 1#1).length = 24) := by decide

theorem test_witness_DatetimeReadQueuesSevenBytes :
    admitTime (mk ⟨7, 7, 1⟩ idle []).now = some w5Draw := by decide

theorem test_witness_TimeReadQueuesThreeBytes :
    admitTime (mk ⟨7, 7, 1⟩ status []).now = some w5Draw := by decide

theorem test_witness_NullCommandStaysIdle :
    (mk ⟨0, 7, 1⟩ status []).rtc.state = 0x00#8 ∧ (mk ⟨0, 7, 1⟩ status []).rtc.numWbits = 0#7 := by decide

theorem test_witness_UnrecognisedByteLocks :
    unrecognised 0x01 = true ∧ unrecognised 0x5F = true ∧ unrecognised 0x68 = true ∧
      unrecognised 0xFF = true ∧ (mk ⟨7, 7, 1⟩ idle []).mode = .lockup := by decide

theorem test_witness_UnrecognisedByteIgnored :
    unrecognised 0x01 = true ∧ unrecognised 0xFF = true ∧
      ({ mk ⟨7, 7, 1⟩ idle [] with mode := .ignore } : State).mode = .ignore := by decide

/-- A locked RTC that takes `Init`, and one that takes a clocked bit. -/
theorem test_witness_OnlyInitEndsTheLockup :
    (mk ⟨4, 7, 1⟩ locked [.init]).mode = .lockup ∧ Locked (mk ⟨4, 7, 1⟩ locked [.init]).rtc ∧
      (∃ t, step (mk ⟨4, 7, 1⟩ locked [.init]) = .next t) ∧
      (∃ t, step (mk ⟨4, 7, 1⟩ locked [.write 0xC4 7]) = .next t) ∧
      Request.write 0xC4 7 ≠ Request.init :=
  ⟨rfl, ⟨by decide, by decide⟩, ⟨_, rfl⟩, ⟨_, rfl⟩, by decide⟩

/-- In the payload phase and in the locked phase. -/
theorem test_witness_ReadsOutsideIdleFetchZero :
    Inv (mk ⟨4, 5, 1⟩ ⟨0, 0, 0, 55, 0x64⟩ []) ∧ Inv (mk ⟨4, 5, 1⟩ locked []) ∧
      (mk ⟨4, 5, 1⟩ locked []).initialised = true ∧ (0x64#8 : Byte) ≠ 0x00#8 ∧
      locked.state ≠ 0x00#8 ∧ ClocksABit (mk ⟨4, 5, 1⟩ locked []) 5 ∧
      ClocksABit (mk ⟨4, 5, 1⟩ ⟨0, 0, 0, 55, 0x64⟩ []) 5 ∧
      (mk ⟨4, 5, 1⟩ locked []).gpio.direction.getLsbD 1 = false := by
  unfold ClocksABit
  refine ⟨fun _ => ⟨(phaseBounds_awaiting (n := 56) rfl).2 (by decide), ?_⟩,
    fun _ => ⟨(phaseBounds_locked ⟨by decide, by decide⟩).2 rfl, ?_⟩, by decide⟩
  · unfold LegalState; decide
  · unfold LegalState; decide

/-- A fresh RTC and one with another response queued, other GPIO registers and an old `wbits`. -/
theorem test_witness_ResponsesDependOnTheDrawAlone :
    (mk ⟨7, 7, 1⟩ ⟨0, 0, 0x33, 7, 0⟩ []).rtc.state = 0x00#8 ∧
      (mk ⟨7, 7, 1⟩ ⟨0, 0, 0x33, 7, 0⟩ []).rtc.numWbits = 7#7 ∧
      (0x33#64 : Shift).extractLsb' 0 7 ++ 1#1 = 0x67#8 ∧
      (0xFB3#64 : Shift).extractLsb' 0 7 ++ 1#1 = 0x67#8 ∧
      (mk ⟨7, 7, 1⟩ ⟨0, 0, 0x33, 7, 0⟩ []).now = (mk ⟨5, 2, 0⟩ ⟨0x40, 8, 0xFB3, 7, 0⟩ []).now ∧
      (∃ t, rtcWriteBit 1 (mk ⟨7, 7, 1⟩ ⟨0, 0, 0x33, 7, 0⟩ []) = .next t) ∧
      (∃ t, rtcWriteBit 1 (mk ⟨5, 2, 0⟩ ⟨0x40, 8, 0xFB3, 7, 0⟩ []) = .next t) :=
  ⟨rfl, rfl, by decide, by decide, rfl, ⟨_, rfl⟩, ⟨_, rfl⟩⟩

/-- The default ranges of D14, at their ends and one beyond. -/
theorem test_timeValidDefault_bounds :
    Config.timeValidDefault ⟨0, 1, 1, 0, 0, 0, 0⟩ = true ∧
      Config.timeValidDefault ⟨99, 12, 31, 6, 23, 59, 59⟩ = true ∧
      Config.timeValidDefault ⟨0, 13, 1, 0, 0, 0, 0⟩ = false ∧
      Config.timeValidDefault ⟨0, 1, 1, 7, 0, 0, 0⟩ = false ∧
      Config.timeValidDefault ⟨0, 1, 1, 0, 24, 0, 0⟩ = false := by decide

/-- With the default predicate, and with the one that holds of every draw, which only the first clause
is about. -/
theorem test_witness_ValidDrawsGiveCalendarBytes :
    admitTime (mk ⟨7, 7, 1⟩ idle []).now = some w5Draw ∧ Config.timeValidDefault w5Draw = true ∧
      (fun _ => true : TimeValid) w5Draw = true ∧
      (∃ t, exec .cmdRdTime (captured 0x67 (mk ⟨7, 7, 1⟩ idle [])) = .next t) ∧
      ∀ d, Config.timeValidDefault d = true → Config.timeValidDefault d = true :=
  ⟨by decide, by decide, rfl, ⟨_, rfl⟩, fun _ h => h⟩

/-- A time source that meets the default predicate, one that meets another, and a step of the first. -/
theorem test_witness_TimeSourceThatMeetsThePredicateIsNeverRefused :
    TimeSourceMeets (mk ⟨4, 7, 1⟩ ⟨0, 0, 0x33, 7, 0⟩ [.write 0xC4 7]) ∧
      TimeSourceMeets (mk ⟨4, 7, 1⟩ idle [.read 0xC4]) (fun d => d.yy == 24) ∧
      ∃ t, step (mk ⟨4, 7, 1⟩ ⟨0, 0, 0x33, 7, 0⟩ [.write 0xC4 7]) = .next t :=
  ⟨fun _ h => List.mem_singleton.1 h ▸ ⟨w5Draw, by decide, by decide⟩,
    fun _ h => List.mem_singleton.1 h ▸ ⟨w5Draw, by decide, by decide⟩, ⟨_, rfl⟩⟩

/-- Both directions of the equivalence, on a valid byte and on an invalid one (B14, B13). -/
theorem test_witness_BcdAndDecimalAreInverse :
    (bcd 37 = 0x37 ∧ decimal 0x37 = 37) ∧ ¬ ((0x0A#8).extractLsb' 0 4).toNat ≤ 9 ∧
      bcd 10 ≠ 0x0A := by decide

theorem test_witness_DecodeEncodeRoundTrip :
    (Instr.wrOther 0xC5 7).wf = true ∧ (Instr.cmdUnrecognised 0xFF).wf = true ∧
      Instr.rdData.wf = true := by decide

theorem test_witness_EncodeDecodeRoundTrip :
    decodeBytes [0xC5, 0, 0, 0] = .ok (.rdOther 0xC5) ∧ decodeBytes [0x12] = .ok (.cmdUnrecognised 0x12) := by
  decide

theorem test_witness_FirstMatchingRowWins :
    ∃ r ∈ opcodeTable, r.matches (.cmdByte 0x61) = true ∧ r.mask ≠ 0 := by decide

/-- A power-on state with other registers than zero, its `Init`, and what the run reaches. -/
theorem reachable_init (s : State) (h : s.initialised = false) :
    ∃ t, Reachable t ∧ t.initialised = true ∧ t.mode = s.mode ∧ t.rtc = idle :=
  ⟨_, .step { s with pending := [⟨.init, w5⟩] } _ (.request s _ (.powerOn s h)) rfl, rfl, rfl, rfl⟩

theorem test_witness_PhaseViewOfState :
    ((0x12#8 : Byte) ≠ 0x00#8 ∧ (0x12#8 : Byte) ≠ 0x62#8 ∧ (0x12#8 : Byte) ≠ 0x64#8 ∧
        (0x12#8 : Byte) ≠ 0x66#8) ∧
      ∃ t, Reachable t ∧ t.initialised = true ∧ t.mode = .ignore :=
  have ⟨t, h, hi, hm, _⟩ := reachable_init (State.powerOn ⟨1, 2, 1⟩ locked .ignore) rfl
  ⟨by decide, t, h, hi, hm⟩

theorem test_witness_StepKeepsInvariant :
    Inv (mk ⟨4, 7, 1⟩ status [.write 0xC4 7]) ∧
      ∃ t, step (mk ⟨4, 7, 1⟩ status [.write 0xC4 7]) = .next t :=
  ⟨fun _ => ⟨(phaseBounds_idle rfl).2 (by decide), by unfold LegalState; decide⟩, ⟨_, rfl⟩⟩

/-- Reachable idle states in both modes, and the premises of the bounds at a payload's last count. -/
theorem test_witness_ReachableStatesMeetTheBounds :
    (∃ t, Reachable t ∧ t.initialised = true ∧ t.rtc.state = 0x00#8) ∧
      (∃ t, Reachable t ∧ t.initialised = true ∧ t.mode = .ignore) ∧
      phase 0x64 = .awaiting 0x64 56 ∧ Locked locked ∧ status.numRbits ≠ 0#7 :=
  have ⟨t, h, hi, _, hr⟩ := reachable_init (State.powerOn ⟨1, 2, 1⟩ locked .lockup) rfl
  have ⟨u, hu, hui, hum, _⟩ := reachable_init (State.powerOn ⟨1, 2, 1⟩ locked .ignore) rfl
  ⟨⟨t, h, hi, by rw [hr]; rfl⟩, ⟨u, hu, hui, hum⟩, rfl, ⟨by decide, by decide⟩, by decide⟩

/-- Two states that differ in a consumed response bit, and two that differ in a lockup's `wbits`. -/
theorem test_witness_HiddenBitsAreUnobservable :
    SameObservable (mk ⟨5, 5, 1⟩ ⟨0x40, 6, 0, 0, 0⟩ [.read 0xC4])
        (mk ⟨5, 5, 1⟩ ⟨0, 6, 0, 0, 0⟩ [.read 0xC4]) ∧
      SameObservable (mk ⟨5, 5, 1⟩ locked [.read 0xC4])
        (mk ⟨5, 5, 1⟩ ⟨0, 0, 0xFF, 3, 0x12⟩ [.read 0xC4]) ∧
      (∃ t, step (mk ⟨5, 5, 1⟩ locked [.read 0xC4]) = .next t) ∧
      (∃ r, step (mk ⟨5, 5, 1⟩ locked []) = .refused r) := by
  refine ⟨?_, ?_, ⟨_, rfl⟩, ⟨_, rfl⟩⟩
  · unfold SameObservable Locked; decide
  · refine ⟨rfl, rfl, rfl, rfl, rfl, rfl, rfl, rfl, by decide, fun h => absurd ⟨?_, ?_⟩ h⟩ <;> decide

/-- A write that changes each register in turn. -/
theorem test_witness_RegistersChangeOnlyByTheirWriters :
    (∃ t, step (mk ⟨4, 7, 0⟩ idle [.write 0xC4 7]) = .next t ∧ t.gpio.data ≠ 4#4 ∧ t.rtc ≠ idle) ∧
      (∃ t, step (mk ⟨4, 7, 0⟩ idle [.write 0xC6 5]) = .next t ∧ t.gpio.direction ≠ 7#4) ∧
      (∃ t, step (mk ⟨4, 7, 0⟩ idle [.write 0xC8 1]) = .next t ∧ t.gpio.readEnabled ≠ 0#1) ∧
      Request.write 0xC4 7 ≠ Request.init :=
  ⟨⟨_, rfl, by decide, by decide⟩, ⟨_, rfl, by decide⟩, ⟨_, rfl, by decide⟩, by decide⟩

/-- `state` changed by a completing bit and by `Init`. -/
theorem test_witness_PhaseChangesOnlyOnWrittenBits :
    (∃ t, step (mk ⟨4, 7, 0⟩ ⟨0, 0, 0x31, 7, 0⟩ [.write 0xC4 5]) = .next t ∧ t.rtc.state ≠ 0x00#8) ∧
      ∃ t, step (mk ⟨4, 7, 0⟩ locked [.init]) = .next t ∧ t.rtc.state ≠ locked.state :=
  ⟨⟨_, rfl, by decide⟩, ⟨_, rfl, by decide⟩⟩

theorem test_witness_EachStepHandlesOneRequest :
    (∃ t, step (mk ⟨4, 7, 1⟩ idle [.read 0xC6]) = .next t ∧ t.responses = [0x0007]) ∧
      ∃ t, step (mk ⟨4, 7, 1⟩ idle [.write 0xC6 5]) = .next t ∧ t.responses = [] :=
  ⟨⟨_, rfl, by decide⟩, ⟨_, rfl, by decide⟩⟩

theorem test_witness_SendBitWritesOneBit :
    (mk ⟨0, 7, 0⟩ idle (sendBit 1)).initialised = true ∧
      (mk ⟨0, 7, 0⟩ idle (sendBit 1)).gpio.direction.getLsbD 1 = true ∧
      (mk ⟨0, 7, 0⟩ idle (sendBit 1)).pending = inputsAt w5 (sendBit 1) ++ [] := by decide

theorem test_witness_RecvBitReadsOneBit :
    (mk ⟨0, 5, 1⟩ status recvBit).initialised = true ∧
      (mk ⟨0, 5, 1⟩ status recvBit).gpio.direction.getLsbD 1 = false ∧
      (mk ⟨0, 5, 1⟩ status recvBit).gpio.readEnabled = 1#1 ∧
      (mk ⟨0, 5, 1⟩ status recvBit).pending = inputsAt w5 recvBit ++ [] := by decide

theorem test_witness_SendByteRunsItsCommand :
    (mk ⟨0, 7, 1⟩ status (sendByte 0x63)).initialised = true ∧
      (mk ⟨0, 7, 1⟩ status (sendByte 0x63)).gpio.direction.getLsbD 1 = true ∧
      (mk ⟨0, 7, 1⟩ status (sendByte 0x63)).rtc.state = 0x00#8 ∧
      (mk ⟨0, 7, 1⟩ status (sendByte 0x63)).rtc.numWbits = 0#7 ∧
      (mk ⟨0, 7, 1⟩ status (sendByte 0x63)).pending = inputsAt w5 (sendByte 0x63) ++ [] :=
  ⟨rfl, by decide, rfl, rfl, rfl⟩

/-- From reset, a placed read and a placed command byte run next. -/
theorem test_witness_PlacedWordRunsNext :
    State.reset.initialised = true ∧
      seen (step (State.reset.withFetchWord 32 0xC4)) = some (⟨0, 0, 0⟩, idle, [0x0000]) ∧
      seen (step (State.reset.withFetchWord 8 0x63)) = some (⟨7, 2, 0⟩, status, []) := by decide

end Sys2Proof.Tests
end

/-! The state family (10_state.md): equations of the shared operations case by case, the invariant of
R41 and R42 along every run, what R39 hides, and the direction bits that nothing reads (R27). -/

namespace Sys2Proof.Machine

/-! Each branch of the shared operations as an equation, read off the laws that list the branches. -/

section Equations

variable {s : State} {v : HalfWord}

theorem rtcWriteBit_of_dispatch (b : Bit) (h0 : s.rtc.state = 0x00#8)
    (h8 : s.rtc.numWbits + 1#7 = 8#7) :
    rtcWriteBit b s = dispatchCommand ((appendBit b s.rtc).wbits.extractLsb' 0 8) s := by
  rcases rtcWriteBit_cases b s with ⟨-, h, -⟩ | ⟨-, h⟩ | ⟨h, -⟩
  · exact absurd h8 (h h0)
  · rw [h0] at h; cases h
  · rw [h, dispatchCommand_setRtc]

theorem rtcWriteBit_of_payloadEnd (b : Bit)
    (h : payloadLength s.rtc.state = some (s.rtc.numWbits + 1#7)) :
    rtcWriteBit b s = .next (setRtc Rtc.reset s) := by
  rcases rtcWriteBit_cases b s with ⟨-, -, hn⟩ | ⟨hw, -⟩ | ⟨-, h0, -⟩
  · exact absurd rfl (hn _ h)
  · exact hw
  · rw [h0] at h; cases h

theorem rtcWriteBit_of_append (b : Bit) (h8 : s.rtc.state = 0x00#8 → s.rtc.numWbits + 1#7 ≠ 8#7)
    (hn : ∀ n, payloadLength s.rtc.state = some n → s.rtc.numWbits + 1#7 ≠ n) :
    rtcWriteBit b s = .next (setRtc (appendBit b s.rtc) s) := by
  rcases rtcWriteBit_cases b s with ⟨hw, -⟩ | ⟨-, hl⟩ | ⟨-, h0, hc⟩
  · exact hw
  · exact absurd rfl (hn _ hl)
  · exact absurd hc (h8 h0)

theorem writeData_of_no_edge (he : risingEdge s.gpio.data (lowLines v) = false) :
    writeData v s = .next (setData (lowLines v) s) := by
  simp [writeData, he]

theorem writeData_of_sent_bit (he : risingEdge s.gpio.data (lowLines v) = true)
    (hd : sio s.gpio.direction = 1#1) :
    writeData v s = rtcWriteBit (sio (lowLines v)) (setData (lowLines v) s) := by
  simp [writeData, he, serialTransfer, hd]

theorem writeData_of_fetched_bit (he : risingEdge s.gpio.data (lowLines v) = true)
    (hd : sio s.gpio.direction ≠ 1#1) :
    writeData v s = .next (rtcReadBit (setData (lowLines v) s)) := by
  simp [writeData, he, serialTransfer, hd]

/-- A read of any offset, gate included. -/
theorem exec_decodeRead (addr : Addr) :
    exec (decodeRead addr) s = whenInitialised s (.next (respond (readHalfword s addr) s)) := by
  cases h : s.initialised with
  | true => rw [exec_read s addr h, whenInitialised_of h]
  | false => rw [exec_read_uninitialised s addr h]; simp [whenInitialised, h]

/-- The first pending input decides what a step runs (40_gpio_bus.md R85). -/
theorem step_eq_exec {input : Input} {rest : List Input} {i : Instr}
    (hp : s.pending = input :: rest) (hd : decodeRequest input.request = .ok i) :
    step s = exec i { s with pending := rest, now := input.time } := by
  simp [step, fetch, hp, hd]

theorem step_eq_accessWidth {input : Input} {rest : List Input} {width : OtherWidth}
    (hp : s.pending = input :: rest) (hd : decodeRequest input.request = .error width) :
    step s = .refused (.accessWidth width) := by
  simp [step, fetch, hp, hd]

theorem step_eq_noRequest (hp : s.pending = []) : step s = .refused .noRequest := by
  simp [step, fetch, hp]

end Equations

/-! The invariant of R41 and R42: `Init` establishes it, every step keeps it. -/

section Invariant

/-- What `Inv` says of the RTC once `Init` has run. -/
def RtcInv (mode : UnknownCmdMode) (r : Rtc) : Prop :=
  PhaseBounds r ∧ LegalState mode r.state

/-- Before the command or payload is complete a bit leaves the phase and its bounds. -/
theorem appendBit_rtcInv {mode : UnknownCmdMode} {r : Rtc} (b : Bit) (hi : RtcInv mode r)
    (h8 : r.state = 0x00#8 → r.numWbits + 1#7 ≠ 8#7)
    (hp : ∀ n, payloadLength r.state = some n → r.numWbits + 1#7 ≠ n) :
    RtcInv mode (appendBit b r) :=
  ⟨appendBit_bounds b r hi.1 h8 hp, hi.2⟩

theorem afterReadBit_rtcInv {mode : UnknownCmdMode} {r : Rtc} (hi : RtcInv mode r) :
    RtcInv mode (afterReadBit r) :=
  ⟨afterReadBit_bounds r hi.1, by rw [afterReadBit_state]; exact hi.2⟩

/-- The start of a payload: no bit of it written, and no response queued. -/
theorem rtcInv_of_payload_start {mode : UnknownCmdMode} {r : Rtc} {n : Count}
    (hl : payloadLength r.state = some n) (hw : r.numWbits = 0#7) (hn : r.numRbits = 0#7) :
    RtcInv mode r := by
  unfold RtcInv LegalState
  rw [phaseBounds_awaiting hl, hw]
  rcases payloadLength_eq_some.1 hl with ⟨h, rfl⟩ | ⟨h, rfl⟩ | ⟨h, rfl⟩ <;> simp [h, hn]

/-- A dispatch establishes the invariant from every state: capture has cleared the counts, and only a
write command or, in mode `LOCKUP`, an unrecognised byte stays in `state`. -/
theorem dispatchCommand_rtcInv {cmd : Byte} {s t : State} (h : dispatchCommand cmd s = .next t) :
    ∃ r, t = setRtc r s ∧ RtcInv s.mode r := by
  rcases dispatchCommand_cases cmd s with ⟨r, hr, hw, hcase⟩ | ⟨-, -, hr⟩
  · obtain rfl : setRtc r s = t := by rw [hr] at h; cases h; rfl
    refine ⟨r, rfl, ?_⟩
    rcases hcase with ⟨h0, hn⟩ | ⟨rfl, hn, hcmd⟩
    · exact ⟨(phaseBounds_idle h0).2 ⟨by simp [hw], hn⟩, by rw [h0]; exact (reset_bounds s.mode).2⟩
    · rcases hcmd with h62 | h64 | h66 | ⟨hu, hm⟩
      · exact rtcInv_of_payload_start (n := 8#7) (by rw [h62]; rfl) hw hn
      · exact rtcInv_of_payload_start (n := 56#7) (by rw [h64]; rfl) hw hn
      · exact rtcInv_of_payload_start (n := 24#7) (by rw [h66]; rfl) hw hn
      · obtain ⟨h0, hl, hlegal⟩ := unrecognised_locks r.state hu
        exact ⟨(phaseBounds_locked ⟨h0, hl⟩).2 hn, hlegal, by simp [hm]⟩
  · rw [hr] at h; cases h

theorem rtcWriteBit_rtcInv {b : Bit} {s t : State} (hi : RtcInv s.mode s.rtc)
    (h : rtcWriteBit b s = .next t) : ∃ r, t = setRtc r s ∧ RtcInv s.mode r := by
  rcases rtcWriteBit_cases b s with ⟨hw, h8, hn⟩ | ⟨hw, -⟩ | ⟨hw, -, -⟩
  · rw [hw] at h; cases h
    exact ⟨_, rfl, appendBit_rtcInv b hi h8 hn⟩
  · rw [hw] at h; cases h
    exact ⟨_, rfl, reset_bounds s.mode⟩
  · rw [hw] at h
    obtain ⟨r, rfl, hr⟩ := dispatchCommand_rtcInv h
    exact ⟨r, rfl, hr⟩

theorem writeData_rtcInv {v : HalfWord} {s t : State} (hi : RtcInv s.mode s.rtc)
    (h : writeData v s = .next t) : RtcInv t.mode t.rtc := by
  rcases writeData_cases v s with ⟨-, hw⟩ | ⟨-, -, hw⟩ | ⟨-, -, hw⟩
  · rw [hw] at h; cases h
    exact hi
  · rw [hw] at h
    obtain ⟨r, rfl, hr⟩ := rtcWriteBit_rtcInv (s := setData (lowLines v) s) hi h
    exact hr
  · rw [hw] at h; cases h
    exact afterReadBit_rtcInv hi

theorem step_keeps_inv {s t : State} (hi : Inv s) (h : step s = .next t) : Inv t := by
  obtain ⟨input, rest, -, hcase⟩ := step_cases h
  rcases hcase with ⟨-, hx⟩ | ⟨-, a, -, rfl⟩ | ⟨hs, v, -, hx⟩ | ⟨-, v, -, rfl⟩ | ⟨-, v, -, rfl⟩ |
    ⟨-, a, v, -, -, rfl⟩
  · cases hx
    exact fun _ => reset_bounds s.mode
  · exact hi
  · exact fun _ => writeData_rtcInv (s := { s with pending := rest, now := input.time }) (hi hs) hx
  · exact hi
  · exact hi
  · exact hi

/-- The invariant holds along every run. -/
theorem inv_of_reachable {s : State} (h : Reachable s) : Inv s := by
  induction h with
  | powerOn s h => intro hi; simp [h] at hi
  | step s t _ hs ih => exact step_keeps_inv ih hs
  | request s inputs _ ih => exact ih

/-- A response is queued only while the RTC is idle (R42). -/
theorem numRbits_eq_zero_of_not_idle {r : Rtc} (hb : PhaseBounds r) (h0 : r.state ≠ 0x00#8) :
    r.numRbits = 0#7 := by
  cases hl : payloadLength r.state with
  | none => exact (phaseBounds_locked ⟨h0, hl⟩).1 hb
  | some n => exact ((phaseBounds_awaiting hl).1 hb).2

theorem numRbits_le_of_bounds {r : Rtc} (hb : PhaseBounds r) : r.numRbits.toNat ≤ 56 := by
  by_cases h0 : r.state = 0x00#8
  · exact ((phaseBounds_idle h0).1 hb).2
  · simp [numRbits_eq_zero_of_not_idle hb h0]

theorem bounds_of_phase_awaiting {r : Rtc} {cmd : Byte} {length : Nat}
    (hp : phase r.state = .awaiting cmd length) (hb : PhaseBounds r) :
    r.numWbits.toNat < length ∧ r.numRbits = 0#7 := by
  unfold PhaseBounds at hb
  rwa [hp] at hb

/-- The four bytes that mode `IGNORE` leaves to `state` are idle or await a payload. -/
theorem phase_ne_locked_of_ignore {state : Byte} (h : LegalState .ignore state) (cmd : Byte) :
    phase state ≠ .locked cmd := by
  rcases h.2 rfl with rfl | rfl | rfl | rfl <;> exact nofun

end Invariant

/-- Settles O43: the invariant `Inv` holds along every run, and its bounds are read off phase by
phase. -/
theorem reachableStatesMeetTheBounds : Obligations.ReachableStatesMeetTheBounds := by
  intro s hr hi
  obtain ⟨hb, hlegal, hignore⟩ := inv_of_reachable hr hi
  refine ⟨fun h0 => ((phaseBounds_idle h0).1 hb).1, fun cmd length hp => ?_,
    numRbits_le_of_bounds hb, fun hn => ?_, (phaseBounds_locked · |>.1 hb), hlegal, hignore⟩
  · obtain ⟨hw, hn⟩ := bounds_of_phase_awaiting hp hb
    exact ⟨by omega, hn⟩
  · by_contra h0
    exact hn (numRbits_eq_zero_of_not_idle hb h0)

/-- Settles O40: the table is the definition of `phase`, and the legal values of `state` in mode
`IGNORE` rule the `Locked` arm out along every run. -/
theorem phaseViewOfState : Obligations.PhaseViewOfState := by
  refine ⟨rfl, rfl, rfl, rfl, fun state h0 h62 h64 h66 => ?_, fun s hr hi hm cmd => ?_⟩
  · exact phase_locked (r := captureCommand state) ⟨h0, payloadLength_eq_none.2 ⟨h62, h64, h66⟩⟩
  · obtain ⟨-, hlegal⟩ := inv_of_reachable hr hi
    exact phase_ne_locked_of_ignore (hm ▸ hlegal) cmd

/-! What R39 hides. Two states that only unobservable bits tell apart are one state with two RTCs, so
the relation is followed through the RTC's operations. -/

section Unobservable

/-- `SameObservable` of the two RTCs alone. -/
def SameObservableRtc (r r' : Rtc) : Prop :=
  r.state = r'.state ∧ r.numRbits = r'.numRbits ∧
    (∀ k < r.numRbits.toNat, r.rbits.getLsbD k = r'.rbits.getLsbD k) ∧
    (¬ Locked r → r.wbits = r'.wbits ∧ r.numWbits = r'.numWbits)

theorem sameObservableRtc_refl (r : Rtc) : SameObservableRtc r r :=
  ⟨rfl, rfl, fun _ _ => rfl, fun _ => ⟨rfl, rfl⟩⟩

theorem sameObservable_iff {s s' : State} :
    SameObservable s s' ↔ ∃ r, s' = setRtc r s ∧ SameObservableRtc s.rtc r := by
  constructor
  · rintro ⟨hg, hi, hm, hp, hn, hres, hrtc⟩
    refine ⟨s'.rtc, ?_, hrtc⟩
    cases s; cases s'; cases hg; cases hi; cases hm; cases hp; cases hn; cases hres; rfl
  · rintro ⟨r, rfl, hr⟩
    exact ⟨rfl, rfl, rfl, rfl, rfl, rfl, hr⟩

theorem sameObservable_setRtc {r r' : Rtc} (s : State) (h : SameObservableRtc r r') :
    SameObservable (setRtc r s) (setRtc r' s) :=
  sameObservable_iff.2 ⟨r', rfl, h⟩

theorem sameObservable_refl (s : State) : SameObservable s s :=
  sameObservable_setRtc s (sameObservableRtc_refl s.rtc)

/-- A shift and count in both keeps the relation: outside lockup the written bits are equal. -/
theorem sameObservableRtc_appendBit {r r' : Rtc} (b : Bit) (h : SameObservableRtc r r') :
    SameObservableRtc (appendBit b r) (appendBit b r') := by
  obtain ⟨hst, hn, hbits, hw⟩ := h
  refine ⟨hst, hn, hbits, fun hl => ?_⟩
  obtain ⟨hwbits, hcount⟩ := hw hl
  rw [appendBit_wbits, appendBit_wbits, appendBit_numWbits, appendBit_numWbits, hwbits, hcount]
  exact ⟨rfl, rfl⟩

/-- A bit read out of both keeps the relation: fewer bits are left to agree on. -/
theorem sameObservableRtc_afterReadBit {r r' : Rtc} (h : SameObservableRtc r r') :
    SameObservableRtc (afterReadBit r) (afterReadBit r') := by
  obtain ⟨hst, hn, hbits, hw⟩ := h
  rw [afterReadBit_eq, afterReadBit_eq, ← hn]
  refine ⟨hst, rfl, fun k hk => hbits k (lt_of_lt_of_le hk ?_), hw⟩
  dsimp only
  split <;> bv_omega

/-- The bit sent to the host is among those that agree. -/
theorem outgoingBit_eq_of_sameObservableRtc {r r' : Rtc} (h : SameObservableRtc r r') :
    outgoingBit r = outgoingBit r' := by
  obtain ⟨-, hn, hbits, -⟩ := h
  rw [outgoingBit_eq, outgoingBit_eq, ← hn]
  split
  · rfl
  · rw [hbits _ (by bv_omega)]

/-- Two answers that the host cannot tell apart. -/
inductive AnswersAgree : Result → Result → Prop where
  | next {t t' : State} (h : SameObservable t t') : AnswersAgree (.next t) (.next t')
  | refused (x : Refusal) : AnswersAgree (.refused x) (.refused x)

theorem answersAgree_refl (a : Result) : AnswersAgree a a := by
  cases a with
  | next t => exact .next (sameObservable_refl t)
  | fault f => cases f
  | refused x => exact .refused x

theorem whenInitialised_agree {s s' : State} {a a' : Result}
    (hi : s.initialised = s'.initialised) (h : AnswersAgree a a') :
    AnswersAgree (whenInitialised s a) (whenInitialised s' a') := by
  unfold whenInitialised
  rw [← hi]
  split
  · exact h
  · exact .refused _

/-- The command and payload phases see equal written bits, since only lockup hides them, and what they
do next does not read `rbits`; in lockup a bit is appended to both. -/
theorem rtcWriteBit_sameObservable (b : Bit) {s : State} {r : Rtc}
    (h : SameObservableRtc s.rtc r) :
    AnswersAgree (rtcWriteBit b s) (rtcWriteBit b (setRtc r s)) := by
  have ⟨hst, _, _, hw⟩ := h
  have hidle (h0 : s.rtc.state = 0x00#8) := hw fun hl => hl.1 h0
  have hpay {n : Count} (hn : payloadLength s.rtc.state = some n) :=
    hw fun hl => by rw [hl.2] at hn; cases hn
  rcases rtcWriteBit_cases b s with ⟨hs, h8, hn⟩ | ⟨hs, hl⟩ | ⟨-, h0, h8⟩
  · rw [hs, rtcWriteBit_of_append (s := setRtc r s)]
    · exact .next (sameObservable_setRtc s (sameObservableRtc_appendBit b h))
    · intro h0
      rw [setRtc_rtc, ← hst] at h0
      simpa [← (hidle h0).2] using h8 h0
    · intro n hl
      rw [setRtc_rtc, ← hst] at hl
      simpa [← (hpay hl).2] using hn n hl
  · rw [hs, rtcWriteBit_of_payloadEnd (s := setRtc r s)]
    · exact .next (sameObservable_refl _)
    · rw [setRtc_rtc, ← hst, ← (hpay hl).2]
      exact hl
  · obtain ⟨hwbits, hcount⟩ := hidle h0
    rw [rtcWriteBit_of_dispatch b h0 h8, rtcWriteBit_of_dispatch (s := setRtc r s), setRtc_rtc,
      dispatchCommand_setRtc, appendBit_wbits, appendBit_wbits, ← hwbits]
    · exact answersAgree_refl _
    · rw [setRtc_rtc, ← hst, h0]
    · rw [setRtc_rtc, ← hcount, h8]

theorem writeData_sameObservable (v : HalfWord) {s : State} {r : Rtc}
    (h : SameObservableRtc s.rtc r) :
    AnswersAgree (writeData v s) (writeData v (setRtc r s)) := by
  rcases writeData_cases v s with ⟨he, hs⟩ | ⟨he, hd, hs⟩ | ⟨he, hd, hs⟩
  · rw [hs, writeData_of_no_edge (s := setRtc r s) he]
    exact .next (sameObservable_setRtc (setData (lowLines v) s) h)
  · rw [hs, writeData_of_sent_bit (s := setRtc r s) he hd]
    exact rtcWriteBit_sameObservable (s := setData (lowLines v) s) _ h
  · rw [hs, writeData_of_fetched_bit (s := setRtc r s) he hd, rtcReadBit_eq, rtcReadBit_eq]
    simp only [setData_rtc, setRtc_rtc, outgoingBit_eq_of_sameObservableRtc h]
    exact .next (sameObservable_setRtc _ (sameObservableRtc_afterReadBit h))

theorem exec_decodeRead_sameObservable (addr : Addr) {s : State} {r : Rtc}
    (h : SameObservableRtc s.rtc r) :
    AnswersAgree (exec (decodeRead addr) s) (exec (decodeRead addr) (setRtc r s)) := by
  rw [exec_decodeRead, exec_decodeRead]
  exact whenInitialised_agree rfl
    (.next (sameObservable_setRtc (respond (readHalfword s addr) s) h))

theorem exec_decodeWrite_sameObservable (addr : Addr) (v : HalfWord) {s : State} {r : Rtc}
    (h : SameObservableRtc s.rtc r) :
    AnswersAgree (exec (decodeWrite addr v) s) (exec (decodeWrite addr v) (setRtc r s)) := by
  unfold decodeWrite
  split
  · exact whenInitialised_agree rfl (writeData_sameObservable v h)
  split
  · exact whenInitialised_agree rfl (.next (sameObservable_setRtc (setDirection (lowLines v) s) h))
  split
  · exact whenInitialised_agree rfl (.next (sameObservable_setRtc (setReadEnabled (lowBit v) s) h))
  · exact whenInitialised_agree rfl (.next (sameObservable_setRtc s h))

theorem exec_decodeRequest_sameObservable {request : Request} {i : Instr}
    (hd : decodeRequest request = .ok i) {s : State} {r : Rtc} (h : SameObservableRtc s.rtc r) :
    AnswersAgree (exec i s) (exec i (setRtc r s)) := by
  cases request with
  | init => cases hd; exact answersAgree_refl (execInit s)
  | read addr => cases hd; exact exec_decodeRead_sameObservable addr h
  | write addr v => cases hd; exact exec_decodeWrite_sameObservable addr v h
  | foreign width isWrite addr => cases hd

theorem step_sameObservable {s s' : State} (h : SameObservable s s') :
    AnswersAgree (step s) (step s') := by
  obtain ⟨r, rfl, hr⟩ := sameObservable_iff.1 h
  cases hp : s.pending with
  | nil =>
    rw [step_eq_noRequest hp, step_eq_noRequest (s := setRtc r s) hp]
    exact .refused _
  | cons input rest =>
    cases hd : decodeRequest input.request with
    | error width =>
      rw [step_eq_accessWidth hp hd, step_eq_accessWidth (s := setRtc r s) hp hd]
      exact .refused _
    | ok i =>
      rw [step_eq_exec hp hd, step_eq_exec (s := setRtc r s) hp hd]
      exact exec_decodeRequest_sameObservable hd
        (s := { s with pending := rest, now := input.time }) hr

end Unobservable

/-- Settles O44: the answers to the same input agree, and agreeing answers are both a next state or
the same refusal. -/
theorem hiddenBitsAreUnobservable : Obligations.HiddenBitsAreUnobservable := by
  intro s s' h
  have hstep := step_sameObservable h
  generalize step s = a, step s' = a' at hstep
  cases hstep with
  | @next t t' ht => exact ⟨fun u hu => by cases hu; exact ⟨t', rfl, ht⟩, fun _ => by simp⟩
  | refused x => exact ⟨nofun, fun _ => Iff.rfl⟩

/-! The direction register (R27): a request other than a direction read or write commutes with a change
of the three bits that nothing reads. -/

section Direction

theorem mapNext_whenInitialised (f : State → State) (s : State) (a : Result) :
    mapNext f (whenInitialised s a) = whenInitialised s (mapNext f a) := by
  unfold whenInitialised
  split <;> rfl

theorem whenInitialised_setDirection (d : Lines) (s : State) (a : Result) :
    whenInitialised (setDirection d s) a = whenInitialised s a := rfl

theorem sio_eq_of_getLsbD_eq {d d' : Lines} (h : d.getLsbD 1 = d'.getLsbD 1) :
    sio d = 1#1 ↔ sio d' = 1#1 := by
  rw [sio_eq_one_iff, sio_eq_one_iff, h]

theorem rtcWriteBit_setDirection (b : Bit) (d : Lines) (s : State) :
    rtcWriteBit b (setDirection d s) = mapNext (setDirection d) (rtcWriteBit b s) := by
  rcases rtcWriteBit_agree b (s := s) (s' := setDirection d s) rfl rfl rfl with
    ⟨r, hs, hd⟩ | ⟨hs, hd⟩
  · rw [hs, hd]; rfl
  · rw [hs, hd]; rfl

/-- A data write reads bit SIO of the direction alone. -/
theorem writeData_setDirection (v : HalfWord) {d : Lines} {s : State}
    (h : d.getLsbD 1 = s.gpio.direction.getLsbD 1) :
    writeData v (setDirection d s) = mapNext (setDirection d) (writeData v s) := by
  have hsio : sio d = 1#1 ↔ sio s.gpio.direction = 1#1 := sio_eq_of_getLsbD_eq h
  rcases writeData_cases v s with ⟨he, hs⟩ | ⟨he, hd, hs⟩ | ⟨he, hd, hs⟩
  · rw [hs, writeData_of_no_edge (s := setDirection d s) he]; rfl
  · rw [hs, writeData_of_sent_bit (s := setDirection d s) he (hsio.2 hd)]
    exact rtcWriteBit_setDirection _ d (setData (lowLines v) s)
  · rw [hs, writeData_of_fetched_bit (s := setDirection d s) he (mt hsio.1 hd)]; rfl

/-- Only a read of 0xC6 returns the direction. -/
theorem readHalfword_setDirection {addr : Addr} (h : addr ≠ dirOffset) (d : Lines) (s : State) :
    readHalfword (setDirection d s) addr = readHalfword s addr := by
  simp [readHalfword, readGate, h]

end Direction

/-- Settles O16: the initialised gate does not see the direction, a data write sees its bit SIO
alone, and each other request but a direction read or write sees none of it. -/
theorem onlySioDirectionActs : Obligations.OnlySioDirectionActs := by
  intro s d addr value hd
  refine ⟨?_, ?_, fun _ => ?_, fun haddr => ?_, rfl⟩
  · simp only [exec, execWrData, whenInitialised_setDirection, mapNext_whenInitialised,
      writeData_setDirection value hd]
  · simp only [exec, execWrEn, whenInitialised_setDirection, mapNext_whenInitialised]
    rfl
  · simp only [exec, execWrOther, whenInitialised_setDirection, mapNext_whenInitialised]
    rfl
  · simp only [exec_decodeRead, whenInitialised_setDirection, mapNext_whenInitialised,
      readHalfword_setDirection haddr]
    rfl

end Sys2Proof.Machine

/-! The encoding family (30_encoding.md): the rows of the opcode table exclude each other, eight
written bits assemble a command byte, and the request sequences of section 5 do the serial operations
they are named after. -/

namespace Sys2Proof

/-! The opcode table (R83, R84). -/

section OpcodeTable

/-- Two rows that match the same request or byte agree on the bits that both look at. -/
theorem OpcodeRow.agree_of_matches {r r' : OpcodeRow} {e : Encoded} (h : r.matches e = true)
    (h' : r'.matches e = true) :
    r.format = r'.format ∧ r.mtch &&& r'.mask = r'.mtch &&& r.mask := by
  simp only [OpcodeRow.matches, Bool.and_eq_true, beq_iff_eq] at h h'
  obtain ⟨hf, hm⟩ := h
  obtain ⟨hf', hm'⟩ := h'
  refine ⟨hf.trans hf'.symm, ?_⟩
  rw [← hm, ← hm', BitVec.and_assoc, BitVec.and_assoc, BitVec.and_comm r.mask]

/-- Two rows of one format, no fallback row among them, differ in a bit that both look at. -/
theorem opcodeTable_rows_disagree : ∀ r ∈ opcodeTable, ∀ r' ∈ opcodeTable,
    r.mask ≠ 0 → r'.mask ≠ 0 → r.format = r'.format →
      r.mtch &&& r'.mask = r'.mtch &&& r.mask → r = r' := by
  decide

/-- Bus rows but the fallback rows compare the whole offset (R64). -/
theorem and_offsetMask (addr : Addr) : addr &&& 0xFFFFFFFF#32 = addr := BitVec.and_allOnes

/-- The rows of the three registers answer for their offset, the fallback row for every other one
(R64, R84). -/
theorem selectRow_offset (addr : Addr) (value : HalfWord) :
    (selectRow (.reqRead addr)).map (·.mnemonic) = some (decodeRead addr).mnemonic ∧
      (selectRow (.reqWrite addr value)).map (·.mnemonic) =
        some (decodeWrite addr value).mnemonic := by
  unfold decodeRead decodeWrite
  split_ifs with hdata hdir hen <;>
    simp_all [selectRow, opcodeTable, busRows, OpcodeRow.matches, Encoded.format, Encoded.key,
      and_offsetMask, Instr.mnemonic]

/-- The command rows, `CMD_RESET` with its masked bit 0 first, byte by byte (R69, R84). -/
theorem selectRow_cmdByte : ∀ cmd : Byte,
    (selectRow (.cmdByte cmd)).map (·.mnemonic) = some (decodeCommand cmd).mnemonic := by
  decide

/-- The first matching row is the row of the decoded instruction (R84). -/
theorem selectRow_mnemonic (e : Encoded) :
    (selectRow e).map (·.mnemonic) = some (decode e).mnemonic := by
  cases e with
  | reqInit => rfl
  | reqRead addr => exact (selectRow_offset addr 0#16).1
  | reqWrite addr value => exact (selectRow_offset addr value).2
  | cmdByte cmd => exact selectRow_cmdByte cmd

end OpcodeTable

/-- Settles O38: each format's first match is the decoder's, and rows that match the same bits under
both masks are one row. -/
theorem firstMatchingRowWins : Obligations.FirstMatchingRowWins := by
  refine fun e => ⟨selectRow_mnemonic e, fun r hr r' hr' h h' hm hm' => ?_⟩
  obtain ⟨hformat, hbits⟩ := OpcodeRow.agree_of_matches h h'
  exact opcodeTable_rows_disagree r hr r' hr' hm hm' hformat hbits

end Sys2Proof

namespace Sys2Proof.Machine

/-! A command byte out of eight written bits (R70). -/

section CommandByte

/-- A captured byte runs the command it decodes to (R69; 42_rtc_commands.md R117). -/
theorem dispatchCommand_eq_exec (cmd : Byte) (s : State) :
    dispatchCommand cmd s = exec (decodeCommand cmd) s := by
  by_cases h : cmd = 0x60#8 ∨ cmd = 0x61#8
  · rcases h with rfl | rfl <;> rfl
  · have ⟨h0, h1⟩ := not_or.1 h
    simp only [dispatchCommand, decodeCommand, if_neg h, if_neg h0, if_neg h1]
    iterate 7 (split; · rfl)
    rfl

/-- Capture before the command changes nothing (log 9). -/
theorem exec_decodeCommand_captured (cmd : Byte) (s : State) :
    exec (decodeCommand cmd) (captured cmd s) = dispatchCommand cmd s := by
  rw [← dispatchCommand_eq_exec]
  exact dispatchCommand_setRtc cmd (captureCommand cmd) s

/-- The RTC with bits shifted in one after another, and nothing else done. -/
def appendBits : List Bit → Rtc → Rtc
  | [], r => r
  | b :: bs, r => appendBits bs (appendBit b r)

/-- A shift moves the lowest `k` bits up by one and puts the new bit below them. -/
theorem appendBit_lowBits (b : Bit) (r : Rtc) (k : Nat) (hk : k ≤ 63) :
    (appendBit b r).wbits.extractLsb' 0 (k + 1) = r.wbits.extractLsb' 0 k ++ b := by
  rw [appendBit_wbits]
  apply BitVec.eq_of_getLsbD_eq
  intro i hi
  rw [BitVec.getLsbD_append, BitVec.getLsbD_extractLsb', BitVec.getLsbD_append]
  by_cases hb : i = 0
  · simp [hb]
  · have hik : i - 1 < k := by omega
    have hi63 : i - 1 < 63 := by omega
    simp [hb, hi, hik, hi63]

/-- Eight bits shifted in fill the low byte, the first one at bit 7, whatever `wbits` held (R70). -/
theorem appendBits_lowByte (b0 b1 b2 b3 b4 b5 b6 b7 : Bit) (r : Rtc) :
    (appendBits [b0, b1, b2, b3, b4, b5, b6, b7] r).wbits.extractLsb' 0 8 =
      b0 ++ b1 ++ b2 ++ b3 ++ b4 ++ b5 ++ b6 ++ b7 := by
  have hfirst : r.wbits.extractLsb' 0 0 ++ b0 = b0 := by
    rw [BitVec.eq_nil (r.wbits.extractLsb' 0 0)]; revert b0; decide
  simp (disch := decide) only [appendBits, appendBit_lowBits, hfirst]

/-- A result passed on to what follows it, a refusal kept. -/
def andThen : Result → (State → Result) → Result
  | .next t, k => k t
  | .fault f, _ => .fault f
  | .refused x, _ => .refused x

@[simp] theorem andThen_next (t : State) (k : State → Result) : andThen (.next t) k = k t := rfl
@[simp] theorem andThen_refused (x : Refusal) (k : State → Result) :
    andThen (.refused x) k = .refused x := rfl

theorem andThen_next_right (a : Result) : andThen a .next = a := by
  cases a <;> rfl

theorem writeBits_cons (b : Bit) (bs : List Bit) (s : State) :
    writeBits (b :: bs) s = andThen (rtcWriteBit b s) (writeBits bs) := by
  rw [writeBits]; cases rtcWriteBit b s <;> rfl

theorem writeBits_singleton (b : Bit) (s : State) : writeBits [b] s = rtcWriteBit b s := by
  rw [writeBits_cons]; exact andThen_next_right _

/-- In the command phase the bits that are still missing to eight, written one after another, run the
command of the byte they complete. -/
theorem writeBits_completing_command (b : Bit) (bs : List Bit) {s : State}
    (h0 : s.rtc.state = 0x00#8) (hlen : s.rtc.numWbits.toNat + bs.length = 7) :
    writeBits (b :: bs) s =
      dispatchCommand ((appendBits (b :: bs) s.rtc).wbits.extractLsb' 0 8) s := by
  induction bs generalizing b s with
  | nil =>
    have h8 : s.rtc.numWbits + 1#7 = 8#7 := by
      rw [List.length_nil] at hlen; bv_omega
    rw [writeBits_singleton, rtcWriteBit_of_dispatch b h0 h8]; rfl
  | cons b' bs ih =>
    rw [List.length_cons] at hlen
    have h8 : s.rtc.numWbits + 1#7 ≠ 8#7 := by bv_omega
    have happend := rtcWriteBit_of_append b (fun _ => h8) fun n hn => by rw [h0] at hn; cases hn
    rw [writeBits_cons, happend, andThen_next, ih b' (by exact h0), dispatchCommand_setRtc]
    · rfl
    · rw [setRtc_rtc, appendBit_numWbits]; bv_omega

end CommandByte

/-- Settles O20: the eighth bit completes the command, whatever `wbits` held before. -/
theorem eightBitsAssembleTheCommand : Obligations.EightBitsAssembleTheCommand := by
  intro s b0 b1 b2 b3 b4 b5 b6 b7 h0 hw
  rw [writeBits_completing_command b0 _ h0 (by rw [hw]; rfl), appendBits_lowByte,
    exec_decodeCommand_captured]

/-! The request sequences `SEND_BIT`, `RECV_BIT` and `SEND_BYTE` (R82). -/

section RequestSequences

variable {s : State} {time : TimeAnswer} {rest : List Input}

theorem runSteps_add (m n : Nat) (s : State) :
    runSteps (m + n) s = andThen (runSteps m s) (runSteps n) := by
  induction m generalizing s with
  | zero => rw [Nat.zero_add]; rfl
  | succ m ih =>
    rw [Nat.add_right_comm, runSteps, runSteps]
    cases step s with
    | next t => exact ih t
    | fault f => rfl
    | refused x => rfl

theorem runSteps_one (s : State) : runSteps 1 s = step s := by
  rw [runSteps]; cases step s <;> rfl

/-- The state once a `SEND_BIT b` has been stored: CS and SCK high and `b` on SIO, its requests taken. -/
def clockedBit (b : Bit) (time : TimeAnswer) (rest : List Input) (s : State) : State :=
  { s with gpio := { s.gpio with data := 0b01#2 ++ b ++ 1#1 }, pending := rest, now := time }

theorem lowLines_highWrite : ∀ b : Bit, lowLines (highWrite b) = 0b01#2 ++ b ++ 1#1 := by decide
theorem sio_clocked : ∀ b : Bit, sio (0b01#2 ++ b ++ 1#1) = b := by decide

/-- SCK low: no edge, whatever the lines were. -/
theorem risingEdge_lowWrite (old : Lines) (b : Bit) :
    risingEdge old (lowLines (lowWrite b)) = false := by
  have hsck : ∀ b : Bit, (sck (lowLines (lowWrite b)) == 1#1) = false := by decide
  simp [risingEdge, hsck]

theorem risingEdge_lowWrite_highWrite : ∀ b : Bit,
    risingEdge (lowLines (lowWrite b)) (lowLines (highWrite b)) = true := by decide

/-- A data write at the head of the queue. -/
theorem step_dataWrite {v : HalfWord} (hi : s.initialised = true)
    (hp : s.pending = ⟨.write dataOffset v, time⟩ :: rest) :
    step s = writeData v { s with pending := rest, now := time } := by
  rw [step_eq_exec hp rfl]
  exact whenInitialised_of hi _

/-- The two writes of a `SEND_BIT`, which also begin a `RECV_BIT`, clock one serial transfer: SCK low
makes no edge, and SCK high after it makes one. -/
theorem runSteps_sendBit_eq_serialTransfer (b : Bit) (hi : s.initialised = true)
    (hp : s.pending = inputsAt time (sendBit b) ++ rest) :
    runSteps 2 s = serialTransfer (clockedBit b time rest s) := by
  have hlow := step_dataWrite hi hp
  rw [writeData_of_no_edge (risingEdge_lowWrite _ b)] at hlow
  rw [runSteps_add 1 1, runSteps_one, hlow, andThen_next, runSteps_one,
    step_dataWrite (by exact hi) rfl, writeData, setData_data, if_pos]
  · rw [lowLines_highWrite]; rfl
  · exact risingEdge_lowWrite_highWrite b

/-- SIO host-driven: the transfer sends the bit (40_gpio_bus.md R93). -/
theorem runSteps_sendBit_of_host_driven (b : Bit) (hi : s.initialised = true)
    (hd : s.gpio.direction.getLsbD 1 = true) (hp : s.pending = inputsAt time (sendBit b) ++ rest) :
    runSteps 2 s = rtcWriteBit b (clockedBit b time rest s) := by
  rw [runSteps_sendBit_eq_serialTransfer b hi hp, serialTransfer,
    if_pos (by exact (sio_eq_one_iff _).2 hd)]
  exact congrArg (rtcWriteBit · _) (sio_clocked b)

/-- One `SEND_BIT` after another is one `RTC_WriteBit` after another; the lines keep the last bit. -/
theorem runSteps_sendBits (b : Bit) (bs : List Bit) {s : State} (hi : s.initialised = true)
    (hd : s.gpio.direction.getLsbD 1 = true)
    (hp : s.pending = inputsAt time ((b :: bs).flatMap sendBit) ++ rest) :
    runSteps (2 * (b :: bs).length) s =
      writeBits (b :: bs) (clockedBit (bs.getLastD b) time rest s) := by
  induction bs generalizing b s with
  | nil => rw [writeBits_singleton]; exact runSteps_sendBit_of_host_driven b hi hd hp
  | cons b' bs ih =>
    have hfirst := runSteps_sendBit_of_host_driven b
      (rest := inputsAt time ((b' :: bs).flatMap sendBit) ++ rest) hi hd hp
    rw [List.length_cons, Nat.mul_succ, Nat.add_comm, runSteps_add, hfirst, writeBits_cons,
      List.getLastD_cons]
    rcases rtcWriteBit_agree b
      (s := clockedBit b time (inputsAt time ((b' :: bs).flatMap sendBit) ++ rest) s)
      (s' := clockedBit (bs.getLastD b') time rest s) rfl rfl rfl with ⟨r, h, h'⟩ | ⟨h, h'⟩
    · rw [h, h', andThen_next, andThen_next]
      exact ih b' hi hd rfl
    · rw [h, h', andThen_refused, andThen_refused]

/-- The read of the lines that ends a `RECV_BIT`, zero-extended to 16 bits (R66). -/
theorem readHalfword_data (hen : s.gpio.readEnabled = 1#1) :
    readHalfword s dataOffset = linesResult s.gpio.data := by
  simp [readHalfword, readGate, hen]

theorem setSio_clocked : ∀ b b' : Bit, setSio b (0b01#2 ++ b' ++ 1#1) = 0b01#2 ++ b ++ 1#1 := by
  decide

theorem linesResult_clocked : ∀ b : Bit,
    linesResult (0b01#2 ++ b ++ 1#1) = 0b00000000000001#14 ++ b ++ 1#1 := by
  decide

/-- SIO chip-driven: the transfer puts the RTC's next bit on SIO in place of the written one (R93). -/
theorem runSteps_sendBit_of_chip_driven (b : Bit) (hi : s.initialised = true)
    (hd : s.gpio.direction.getLsbD 1 = false)
    (hp : s.pending = inputsAt time (sendBit b) ++ rest) :
    runSteps 2 s =
      .next (setRtc (afterReadBit s.rtc) (clockedBit (outgoingBit s.rtc) time rest s)) := by
  have hsio : sio s.gpio.direction ≠ 1#1 := by
    rw [Ne, sio_eq_one_iff, hd]; exact Bool.false_ne_true
  rw [runSteps_sendBit_eq_serialTransfer b hi hp, serialTransfer,
    if_neg (by exact hsio), rtcReadBit_eq]
  exact congrArg (fun d => Host.Outcome.next (setRtc _ (setData d _))) (setSio_clocked _ b)

/-- The bits of a byte put together again. -/
theorem msbFirst_byte : ∀ v : Byte, v.extractLsb' 7 1 ++ v.extractLsb' 6 1 ++ v.extractLsb' 5 1 ++
    v.extractLsb' 4 1 ++ v.extractLsb' 3 1 ++ v.extractLsb' 2 1 ++ v.extractLsb' 1 1 ++
    v.extractLsb' 0 1 = v := by
  decide

end RequestSequences

/-- Settles O48: the first write only lowers the clock, the second sends the bit. -/
theorem sendBitWritesOneBit : Obligations.SendBitWritesOneBit :=
  fun _ b _ _ hi hd hp => runSteps_sendBit_of_host_driven b hi hd hp

/-- Settles O50: eight `SEND_BIT`s write the byte's eight bits, which assemble its command. -/
theorem sendByteRunsItsCommand : Obligations.SendByteRunsItsCommand := by
  intro s v time rest hi hd h0 hw hp
  have hbits := eightBitsAssembleTheCommand
    (clockedBit (v.extractLsb' 0 1) time rest s) (v.extractLsb' 7 1) (v.extractLsb' 6 1)
    (v.extractLsb' 5 1) (v.extractLsb' 4 1) (v.extractLsb' 3 1) (v.extractLsb' 2 1)
    (v.extractLsb' 1 1) (v.extractLsb' 0 1) h0 hw
  rw [msbFirst_byte] at hbits
  exact (runSteps_sendBits _ _ hi hd hp).trans hbits

/-- Settles O49: the clocked transfer fetches the next bit onto SIO, and the read returns the lines. -/
theorem recvBitReadsOneBit : Obligations.RecvBitReadsOneBit := by
  intro s time rest hi hd hen hp
  refine ⟨outgoingBit s.rtc, outgoingBit_eq s.rtc, ?_⟩
  have hfetch := runSteps_sendBit_of_chip_driven 0#1
    (rest := inputsAt time [.read dataOffset] ++ rest) hi hd hp
  have hread := exec_read (clockedBit (outgoingBit s.rtc) time rest
    (setRtc (afterReadBit s.rtc) s)) dataOffset hi
  rw [readHalfword_data (by exact hen)] at hread
  rw [runSteps_add 2 1, hfetch, andThen_next, runSteps_one, step_eq_exec rfl rfl]
  refine hread.trans ?_
  rw [afterReadBit_eq]
  exact congrArg (fun v => Host.Outcome.next (respond v _)) (linesResult_clocked _)

end Sys2Proof.Machine

/-! The bus family (40_gpio_bus.md): when a data write is a serial transfer and which way its bit
goes (R91-R93, R99-R101), the read enable, which no write reads (R98), and what each other request
stores or returns. -/

namespace Sys2Proof.Machine

/-! Data writes. -/

section DataWrite

variable {s t : State} {v : HalfWord} {time : TimeAnswer} {rest : List Input}

theorem exec_wrData (hi : s.initialised = true) (v : HalfWord) :
    exec (.wrData v) s = writeData v s :=
  whenInitialised_of hi _

theorem writeData_of_not_clocksABit (h : ¬ ClocksABit s v) :
    writeData v s = .next (setData (lowLines v) s) :=
  writeData_of_no_edge (Bool.eq_false_iff.2 (mt (risingEdge_iff s v).1 h))

/-- SCK already 1: there is no edge to rise (R99). -/
theorem not_clocksABit_of_sck_high (h : s.gpio.data.getLsbD 0 = true) : ¬ ClocksABit s v := by
  rintro ⟨-, -, hlow⟩
  exact Bool.false_ne_true (hlow.symm.trans h)

/-- A value that clocks a bit has SCK = 1. -/
theorem lowBit_of_clocksABit (h : ClocksABit s v) : v.extractLsb' 0 1 = 1#1 := by
  obtain ⟨-, hsck, -⟩ := h
  rw [bit_eq_one_iff]
  simpa using hsck

/-- A data write stores its value but for bit SIO, and changes at most the RTC besides. -/
theorem writeData_frame (h : writeData v s = .next t) :
    ∃ b r, t = setRtc r (setData (setSio b (lowLines v)) s) := by
  rcases writeData_cases v s with ⟨-, hw⟩ | ⟨-, -, hw⟩ | ⟨-, -, hw⟩
  · rw [hw] at h; cases h
    exact ⟨sio (lowLines v), s.rtc, by rw [setSio_sio]; rfl⟩
  · rcases rtcWriteBit_next_or (sio (lowLines v)) (setData (lowLines v) s) with
      ⟨r, hr⟩ | ⟨-, hr⟩
    · rw [hw, hr] at h; cases h
      exact ⟨sio (lowLines v), r, by rw [setSio_sio]⟩
    · rw [hw, hr] at h; cases h
  · rw [hw] at h; cases h
    exact ⟨outgoingBit s.rtc, afterReadBit s.rtc, rfl⟩

/-- A transfer into bit SIO leaves SCK as written. -/
theorem setSio_lowLines_sck (b : Bit) (v : HalfWord) :
    (setSio b (lowLines v)).getLsbD 0 = v.getLsbD 0 := by
  rw [setSio_lowLines, BitVec.getLsbD_append]
  simp

/-- While SCK stays 1 no data write touches the RTC (R99). -/
theorem runSteps_of_sck_held (vs : List HalfWord) {s : State} (hi : s.initialised = true)
    (hsck : s.gpio.data.getLsbD 0 = true) (hvs : ∀ v ∈ vs, v.getLsbD 0 = true)
    (hp : s.pending = inputsAt time (vs.map (Request.write dataOffset)) ++ rest) :
    ∃ u, runSteps vs.length s = .next u ∧ u.rtc = s.rtc := by
  induction vs generalizing s with
  | nil => exact ⟨s, rfl, rfl⟩
  | cons v vs ih =>
    obtain ⟨hv, hvs⟩ := List.forall_mem_cons.1 hvs
    have hstep := step_dataWrite hi hp
    rw [writeData_of_not_clocksABit (by exact not_clocksABit_of_sck_high hsck)] at hstep
    rw [List.length_cons, runSteps, hstep]
    exact ih hi (by simpa [lowLines] using hv) hvs rfl

end DataWrite

/-- Settles O9: the value is stored and the edge test fails. -/
theorem dataWriteWithoutEdgeOnlyStores : Obligations.DataWriteWithoutEdgeOnlyStores :=
  fun _ v hi h => (exec_wrData hi v).trans (writeData_of_not_clocksABit h)

/-- Settles O10: the first write leaves SCK = 1, and after that no write is an edge. -/
theorem heldClockMovesNoFurtherBit : Obligations.HeldClockMovesNoFurtherBit := by
  intro s first others time rest hi hfirst hothers hp
  refine ⟨fun t ht => ?_, fun hsck => ?_⟩
  · rw [Nat.add_comm, runSteps_add, ht, andThen_next]
    rw [runSteps_one, step_dataWrite hi hp] at ht
    obtain ⟨b, r, rfl⟩ := writeData_frame ht
    exact runSteps_of_sck_held others hi ((setSio_lowLines_sck b first).trans hfirst) hothers rfl
  · exact runSteps_of_sck_held (first :: others) hi hsck
      (List.forall_mem_cons.2 ⟨hfirst, hothers⟩) hp

/-- Settles O11: the edge starts a transfer, and the direction bit sends it to the RTC. -/
theorem edgeSendsTheWrittenBit : Obligations.EdgeSendsTheWrittenBit := by
  intro s v hi hclock hd
  rw [exec_wrData hi, writeData_of_sent_bit ((risingEdge_iff s v).2 hclock)
    ((sio_eq_one_iff _).2 hd), sio_lowLines]
  rfl

/-- Settles O12: the edge starts a transfer, and the direction bit takes it from the RTC. -/
theorem edgeFetchesTheNextBit : Obligations.EdgeFetchesTheNextBit := by
  intro s v hi hclock hd
  have hsio : sio s.gpio.direction ≠ 1#1 := by
    rw [Ne, sio_eq_one_iff, hd]; exact Bool.false_ne_true
  rw [exec_wrData hi, writeData_of_fetched_bit ((risingEdge_iff s v).2 hclock) hsio, rtcReadBit_eq,
    setData_data, setSio_lowLines, lowBit_of_clocksABit hclock, outgoingBit_eq, afterReadBit_eq]
  rfl

/-! The read enable (R86, R98). -/

section ReadEnable

theorem whenInitialised_setReadEnabled (e : Bit) (s : State) (a : Result) :
    whenInitialised (setReadEnabled e s) a = whenInitialised s a := rfl

theorem rtcWriteBit_setReadEnabled (b e : Bit) (s : State) :
    rtcWriteBit b (setReadEnabled e s) = mapNext (setReadEnabled e) (rtcWriteBit b s) := by
  rcases rtcWriteBit_agree b (s := s) (s' := setReadEnabled e s) rfl rfl rfl with
    ⟨r, hs, he⟩ | ⟨hs, he⟩
  · rw [hs, he]; rfl
  · rw [hs, he]; rfl

/-- A data write reads the lines, bit SIO of the direction and what a sent bit reads. -/
theorem writeData_setReadEnabled (v : HalfWord) (e : Bit) (s : State) :
    writeData v (setReadEnabled e s) = mapNext (setReadEnabled e) (writeData v s) := by
  rcases writeData_cases v s with ⟨he, hs⟩ | ⟨he, hd, hs⟩ | ⟨he, hd, hs⟩
  · rw [hs, writeData_of_no_edge (s := setReadEnabled e s) he]; rfl
  · rw [hs, writeData_of_sent_bit (s := setReadEnabled e s) he hd]
    exact rtcWriteBit_setReadEnabled _ e (setData (lowLines v) s)
  · rw [hs, writeData_of_fetched_bit (s := setReadEnabled e s) he hd]; rfl

theorem readHalfword_of_disabled {s : State} (h : s.gpio.readEnabled = 0#1) (addr : Addr) :
    readHalfword s addr = 0#16 :=
  if_pos h

/-- The enable reads truthfully through its own gate: a gated read of it is 0, which
it holds (R89). -/
theorem readGate_readEnabled (s : State) :
    readGate s (bitResult s.gpio.readEnabled) = s.gpio.readEnabled.setWidth 16 := by
  by_cases h : s.gpio.readEnabled = 0#1
  · rw [readGate, if_pos h, h]; rfl
  · rw [readGate, if_neg h, bitResult]

end ReadEnable

/-- Settles O15: neither the initialised gate nor what a write does sees the enable; a disabled read
is gated to 0 at every offset. -/
theorem writesIgnoreTheReadEnable : Obligations.WritesIgnoreTheReadEnable := by
  intro s e addr v
  refine ⟨?_, ?_, fun _ => ?_, rfl, fun hi hen => ?_⟩
  · simp only [exec, execWrData, whenInitialised_setReadEnabled, mapNext_whenInitialised,
      writeData_setReadEnabled]
  · simp only [exec, execWrDir, whenInitialised_setReadEnabled, mapNext_whenInitialised]
    rfl
  · simp only [exec, execWrOther, whenInitialised_setReadEnabled, mapNext_whenInitialised]
    rfl
  · rw [exec_read s addr hi, readHalfword_of_disabled hen]
    rfl

/-- Settles O3: the initialised gate is open, and each read appends its gated register. -/
theorem readsReturnTheirRegister : Obligations.ReadsReturnTheirRegister := by
  refine fun s hi => ⟨whenInitialised_of hi _, whenInitialised_of hi _, ?_,
    fun _ _ _ _ => whenInitialised_of hi _⟩
  rw [← readGate_readEnabled s]
  exact whenInitialised_of hi _

/-- Settles O5: the initialised gate is open, and the store is the whole effect. -/
theorem directionWriteStores : Obligations.DirectionWriteStores :=
  fun _ _ hi => whenInitialised_of hi _

/-- Settles O6: the initialised gate is open, and the store is the whole effect. -/
theorem enableWriteStores : Obligations.EnableWriteStores :=
  fun _ _ hi => whenInitialised_of hi _

/-- An offset that is none of the three registers' decodes to the fallback row (R64, R96). -/
theorem decodeWrite_of_unmapped {addr : Addr} (v : HalfWord) (hdata : addr ≠ dataOffset)
    (hdir : addr ≠ dirOffset) (hen : addr ≠ enOffset) :
    decodeWrite addr v = .wrOther addr v := by
  rw [decodeWrite, if_neg hdata, if_neg hdir, if_neg hen]

/-- Settles O7: the offset falls through the decoder, and `WR_OTHER` keeps the state. -/
theorem unmappedWriteHasNoEffect : Obligations.UnmappedWriteHasNoEffect :=
  fun _ _ v hi hdata hdir hen =>
    ⟨congrArg Except.ok (decodeWrite_of_unmapped v hdata hdir hen), whenInitialised_of hi _⟩

/-- Settles O8: `Init` has no gate and reads no register it writes. -/
theorem initZeroesEveryRegister : Obligations.InitZeroesEveryRegister :=
  fun _ => ⟨_, rfl, rfl, rfl⟩

end Sys2Proof.Machine

/-! The serial family (41_rtc_serial.md): what a written bit does in each phase (R107-R109), what a
read bit returns (R111, R112), and which step can change the phase (R115). -/

namespace Sys2Proof.Machine

/-! The written bit. -/

section WrittenBit

variable {s t : State} {v : HalfWord}

/-- The byte that the eighth bit completes (R107): the seven lowest bits of `wbits` and the new one. -/
theorem appendBit_lowByte (b : Bit) (r : Rtc) :
    (appendBit b r).wbits.extractLsb' 0 8 = r.wbits.extractLsb' 0 7 ++ b :=
  appendBit_lowBits b r 7 (by decide)

/-- A bit that completes neither a command nor a payload is appended and counted (R106). -/
theorem rtcWriteBit_eq_append (b : Bit) (h8 : s.rtc.state = 0x00#8 → s.rtc.numWbits + 1#7 ≠ 8#7)
    (hn : ∀ n, payloadLength s.rtc.state = some n → s.rtc.numWbits + 1#7 ≠ n) :
    rtcWriteBit b s = .next { s with rtc := { s.rtc with
      wbits := s.rtc.wbits.extractLsb' 0 63 ++ b, numWbits := s.rtc.numWbits + 1#7 } } := by
  rw [rtcWriteBit_of_append b h8 hn, appendBit_eq]
  rfl

theorem ne_zero_of_payloadLength {state : Byte} {n : Count} (h : payloadLength state = some n) :
    state ≠ 0x00#8 := by
  rintro rfl
  cases h

/-- Only a clocked bit reaches the RTC's `state`, and only one that the host drives changes it. -/
theorem writeData_changes_state (h : writeData v s = .next t) (hne : t.rtc.state ≠ s.rtc.state) :
    ClocksABit s v ∧ s.gpio.direction.getLsbD 1 = true := by
  rcases writeData_cases v s with ⟨-, hw⟩ | ⟨he, hd, -⟩ | ⟨-, -, hw⟩
  · rw [hw] at h; cases h
    exact absurd rfl hne
  · exact ⟨(risingEdge_iff s v).1 he, (sio_eq_one_iff _).1 hd⟩
  · rw [hw] at h; cases h
    exact absurd (afterReadBit_state s.rtc) hne

end WrittenBit

/-- Settles O17: below eight the bit is only appended; the eighth runs the dispatch, which is the
decoded command in the captured state. -/
theorem commandPhaseRunsTheEighthBit : Obligations.CommandPhaseRunsTheEighthBit := by
  refine fun s b h0 => ⟨fun h8 => ?_, fun h8 => ?_⟩
  · exact rtcWriteBit_eq_append b (fun _ => h8) fun n hn => absurd h0 (ne_zero_of_payloadLength hn)
  · rw [rtcWriteBit_of_dispatch b h0 h8, appendBit_lowByte, exec_decodeCommand_captured]

/-- Settles O18: the three states are those with a payload length, and the count either reaches it
or not. -/
theorem payloadPhaseDiscardsAtItsLength : Obligations.PayloadPhaseDiscardsAtItsLength := by
  intro s b length hstate
  have hl : payloadLength s.rtc.state = some length := payloadLength_eq_some.2 hstate
  by_cases hend : s.rtc.numWbits + 1#7 = length
  · rw [if_pos hend, rtcWriteBit_of_payloadEnd b (by rw [hend, hl])]
    rfl
  · rw [if_neg hend]
    refine rtcWriteBit_eq_append b (fun h0 => absurd h0 (ne_zero_of_payloadLength hl)) fun n hn => ?_
    obtain rfl : length = n := Option.some.inj (hl.symm.trans hn)
    exact hend

/-- Settles O19: in the locked phase there is neither a command nor a payload to complete. -/
theorem lockedPhaseOnlyShifts : Obligations.LockedPhaseOnlyShifts := by
  intro s b h0 h62 h64 h66
  have hl : payloadLength s.rtc.state = none := payloadLength_eq_none.2 ⟨h62, h64, h66⟩
  exact rtcWriteBit_eq_append b (fun h => absurd h h0) fun n hn => by rw [hl] at hn; cases hn

/-- Settles O46: of all requests but `Init` only a data write touches the RTC, and of its transfers
only a sent bit touches `state`. -/
theorem phaseChangesOnlyOnWrittenBits : Obligations.PhaseChangesOnlyOnWrittenBits := by
  refine ⟨fun s => afterReadBit_state s.rtc, fun s t input rest hp h hne => ?_⟩
  obtain ⟨input', rest', hp', hcase⟩ := step_cases h
  obtain ⟨rfl, rfl⟩ : input = input' ∧ rest = rest' := List.cons.inj (hp.symm.trans hp')
  rcases hcase with ⟨hr, -⟩ | ⟨-, a, -, rfl⟩ | ⟨-, v, hr, hw⟩ | ⟨-, v, -, rfl⟩ | ⟨-, v, -, rfl⟩ |
    ⟨-, a, v, -, -, rfl⟩
  · exact .inl hr
  · exact absurd rfl hne
  · exact .inr ⟨v, hr, writeData_changes_state
      (s := { s with pending := rest, now := input.time }) hw hne⟩
  · exact absurd rfl hne
  · exact absurd rfl hne
  · exact absurd rfl hne

/-! The read bit. -/

section ReadBit

/-- With nothing queued the bit read is 0. -/
theorem outgoingBit_of_empty {r : Rtc} (h : r.numRbits = 0#7) : outgoingBit r = 0#1 :=
  if_pos h

theorem numRbits_ne_zero_of_queued {r : Rtc} {n : Nat} (h : r.numRbits.toNat = n + 1) :
    r.numRbits ≠ 0#7 := by
  rintro h0
  simp [h0] at h

/-- With something queued it is the highest queued bit. -/
theorem outgoingBit_of_queued {r : Rtc} {n : Nat} (h : r.numRbits.toNat = n + 1) :
    outgoingBit r = BitVec.ofBool (r.rbits.getLsbD n) := by
  rw [outgoingBit_eq, if_neg (numRbits_ne_zero_of_queued h), h, Nat.add_sub_cancel]

theorem afterReadBit_rbits (r : Rtc) : (afterReadBit r).rbits = r.rbits := by
  rw [afterReadBit_eq]

/-- With something queued a bit read counts it off. -/
theorem afterReadBit_numRbits_of_queued {r : Rtc} {n : Nat} (h : r.numRbits.toNat = n + 1) :
    (afterReadBit r).numRbits.toNat = n := by
  simp only [afterReadBit_eq, if_neg (numRbits_ne_zero_of_queued h)]
  bv_omega

/-- The bits at positions below `n` from the highest down, as the wire carries them (R49). -/
def highestFirst (bits : Shift) (n : Nat) : List Bit :=
  (List.range n).map fun j => BitVec.ofBool (bits.getLsbD (n - 1 - j))

theorem highestFirst_succ (bits : Shift) (n : Nat) :
    highestFirst bits (n + 1) = BitVec.ofBool (bits.getLsbD n) :: highestFirst bits n := by
  rw [highestFirst, List.range_succ_eq_map, List.map_cons, List.map_map]
  refine congrArg _ (List.map_congr_left fun j _ => ?_)
  rw [Function.comp_apply, show n + 1 - 1 - j.succ = n - 1 - j by omega]

/-- The queued bits come out from the highest down, and then zeros. -/
theorem readBits_of_queued (n k : Nat) {s : State} (h : s.rtc.numRbits.toNat = n) :
    readBits (n + k) s = highestFirst s.rtc.rbits n ++ List.replicate k 0#1 := by
  induction n generalizing s with
  | zero =>
    rw [Nat.zero_add]
    exact readBits_of_idle k s (BitVec.eq_of_toNat_eq h)
  | succ n ih =>
    rw [Nat.add_right_comm, readBits, outgoingBit_of_queued h,
      ih (afterReadBit_numRbits_of_queued h), rtcReadBit_rtc, afterReadBit_rbits,
      highestFirst_succ, List.cons_append]

end ReadBit

/-- Settles O31: outside idle the invariant leaves nothing queued, so the edge fetches 0 and finds
nothing to count off. -/
theorem readsOutsideIdleFetchZero : Obligations.ReadsOutsideIdleFetchZero := by
  intro s v hinv hi h0 hclock hd
  obtain ⟨hb, -⟩ := hinv hi
  have hempty : s.rtc.numRbits = 0#7 := numRbits_eq_zero_of_not_idle hb h0
  refine ⟨outgoingBit_of_empty hempty, ?_⟩
  rw [edgeFetchesTheNextBit s v hi hclock hd, if_pos hempty, if_pos hempty, ← hempty]

/-- Settles O32: the induction over the queued bits, at the count that the RTC holds. -/
theorem responsesComeOutHighestBitFirst : Obligations.ResponsesComeOutHighestBitFirst :=
  fun _ k => readBits_of_queued _ k rfl

end Sys2Proof.Machine

/-! The command family (42_rtc_commands.md): the dispatch of a byte (R117), payloads of any bits
(R130), responses byte by byte (R120-R124), and the lockup (R126, R128). -/

namespace Sys2Proof.Machine

/-- Settles O21: both sides are the dispatch of the byte, and that reads nothing of the RTC. -/
theorem dispatchRunsTheDecodedCommand : Obligations.DispatchRunsTheDecodedCommand :=
  fun s cmd => ⟨dispatchCommand_eq_exec cmd s,
    (exec_decodeCommand_captured cmd s).trans (dispatchCommand_eq_exec cmd s)⟩

/-- Settles O22: the low bit of the byte is the operand, and the command goes back to idle. -/
theorem resetCommandClearsTheRtc : Obligations.ResetCommandClearsTheRtc := by
  rintro s cmd (rfl | rfl)
  · exact ⟨0#1, rfl, rfl⟩
  · exact ⟨1#1, rfl, rfl⟩

/-! Bits written outside the command phase. -/

section WrittenBits

variable {s : State}

theorem appendBits_state (bs : List Bit) (r : Rtc) : (appendBits bs r).state = r.state := by
  induction bs generalizing r with
  | nil => rfl
  | cons b bs ih => exact ih (appendBit b r)

theorem appendBits_numRbits (bs : List Bit) (r : Rtc) :
    (appendBits bs r).numRbits = r.numRbits := by
  induction bs generalizing r with
  | nil => rfl
  | cons b bs ih => exact ih (appendBit b r)

/-- The count goes up by one with each bit, modulo 128 (41_rtc_serial.md R106). -/
theorem appendBits_numWbits (bs : List Bit) (r : Rtc) :
    (appendBits bs r).numWbits = r.numWbits + BitVec.ofNat 7 bs.length := by
  induction bs generalizing r with
  | nil => simp [appendBits]
  | cons b bs ih =>
    rw [appendBits, ih, appendBit_numWbits, List.length_cons, BitVec.ofNat_add]
    ac_rfl

theorem writeBits_append (bs cs : List Bit) (s : State) :
    writeBits (bs ++ cs) s = andThen (writeBits bs s) (writeBits cs) := by
  induction bs generalizing s with
  | nil => rfl
  | cons b bs ih =>
    rw [List.cons_append, writeBits_cons, writeBits_cons]
    cases rtcWriteBit b s with
    | next t => exact ih t
    | fault f => rfl
    | refused x => rfl

/-- Outside the command phase, bits that do not reach the payload's length are only appended. -/
theorem writeBits_of_incomplete (bs : List Bit) (h0 : s.rtc.state ≠ 0x00#8)
    (hn : ∀ n, payloadLength s.rtc.state = some n →
      s.rtc.numWbits.toNat + bs.length < n.toNat) :
    writeBits bs s = .next (setRtc (appendBits bs s.rtc) s) := by
  induction bs generalizing s with
  | nil => rfl
  | cons b bs ih =>
    have hcount : ∀ n, payloadLength s.rtc.state = some n →
        s.rtc.numWbits + 1#7 ≠ n ∧ (s.rtc.numWbits + 1#7).toNat + bs.length < n.toNat := by
      intro n hl
      have := hn n hl
      rw [List.length_cons] at this
      constructor <;> bv_omega
    have happend := rtcWriteBit_of_append b (fun h => absurd h h0) fun n hl => (hcount n hl).1
    rw [writeBits_cons, happend, andThen_next, ih (by exact h0)
      (by exact fun n hl => (hcount n hl).2)]
    rfl

/-- The bit that makes the count the payload's length clears the RTC (41_rtc_serial.md R108). -/
theorem writeBits_of_complete_payload (bs : List Bit) {n : Count}
    (hl : payloadLength s.rtc.state = some n)
    (hlen : s.rtc.numWbits.toNat + bs.length = n.toNat) (hpos : 0 < bs.length) :
    writeBits bs s = .next (setRtc Rtc.reset s) := by
  obtain ⟨init, b, rfl⟩ :=
    (List.eq_nil_or_concat' bs).resolve_left (List.ne_nil_of_length_pos hpos)
  rw [List.length_append, List.length_singleton] at hlen
  have hinit : writeBits init s = .next (setRtc (appendBits init s.rtc) s) := by
    refine writeBits_of_incomplete init (ne_zero_of_payloadLength hl) fun m hm => ?_
    obtain rfl : n = m := Option.some.inj (hl.symm.trans hm)
    omega
  have hlast : (appendBits init s.rtc).numWbits + 1#7 = n := by
    rw [appendBits_numWbits]; bv_omega
  rw [writeBits_append, hinit, andThen_next, writeBits_singleton, rtcWriteBit_of_payloadEnd b]
  · rfl
  · rw [setRtc_rtc, appendBits_state, hlast, hl]

/-- In the locked phase every bit is only appended (R109). -/
theorem writeBits_of_locked (bs : List Bit) (h : Locked s.rtc) :
    writeBits bs s = .next (setRtc (appendBits bs s.rtc) s) := by
  obtain ⟨h0, hl⟩ := h
  exact writeBits_of_incomplete bs h0 fun n hn => by rw [hl] at hn; cases hn

end WrittenBits

/-- Settles O23: a write command keeps what capture leaves, and every bit but the last of its payload
is only appended. -/
theorem writeCommandsTakeExactlyTheirPayload :
    Obligations.WriteCommandsTakeExactlyTheirPayload := by
  intro s i cmd length hcmd
  have hexec : exec i (captured cmd s) = .next (captured cmd s) := by
    rcases hcmd with ⟨rfl, rfl, -⟩ | ⟨rfl, rfl, -⟩ | ⟨rfl, rfl, -⟩ <;> rfl
  obtain ⟨n, hl, rfl, hpos⟩ :
      ∃ n, payloadLength cmd = some n ∧ n.toNat = length ∧ 0 < length := by
    rcases hcmd with ⟨-, rfl, rfl⟩ | ⟨-, rfl, rfl⟩ | ⟨-, rfl, rfl⟩
    · exact ⟨8#7, rfl, rfl, by decide⟩
    · exact ⟨56#7, rfl, rfl, by decide⟩
    · exact ⟨24#7, rfl, rfl, by decide⟩
  refine ⟨_, hexec, rfl, fun bits hlen => ?_, fun bits hlen => ?_⟩
  · have hwrite : writeBits bits (captured cmd s) =
        .next (setRtc (appendBits bits (captureCommand cmd)) s) := by
      refine writeBits_of_incomplete bits (ne_zero_of_payloadLength hl) fun m hm => ?_
      obtain rfl : n = m := Option.some.inj (hl.symm.trans hm)
      exact (Nat.zero_add _).trans_lt hlen
    refine ⟨_, hwrite, appendBits_state bits _, ?_⟩
    rw [setRtc_rtc, appendBits_numWbits, captureCommand_numWbits]
    bv_omega
  · exact writeBits_of_complete_payload (s := captured cmd s) bits hl
      ((Nat.zero_add _).trans hlen) (hlen ▸ hpos)

/-! Responses on the wire, byte by byte. -/

section ResponseBytes

theorem ofBool_getLsbD {w : Nat} (x : BitVec w) (i : Nat) :
    BitVec.ofBool (x.getLsbD i) = x.extractLsb' i 1 := by
  apply BitVec.eq_of_getLsbD_eq
  intro j hj
  obtain rfl : j = 0 := by omega
  simp

/-- The low byte of what is queued, most significant bit first (20_memory.md R49). -/
theorem highestFirst_lowByte (bits : Shift) :
    highestFirst bits 8 = msbFirst (bits.extractLsb' 0 8) := by
  simp (disch := decide) only [msbFirst, BitVec.extractLsb'_extractLsb'_of_le, ← ofBool_getLsbD]
  rfl

theorem highestFirst_byte (v : Byte) : highestFirst (v.setWidth 64) 8 = msbFirst v := by
  rw [highestFirst_lowByte, BitVec.extractLsb'_setWidth_of_le (by decide),
    BitVec.extractLsb'_eq_self]

/-- The byte in the lowest position comes out after everything above it. -/
theorem highestFirst_append_byte {w : Nat} (hw : w + 8 ≤ 64) (x : BitVec w) (v : Byte) (n : Nat) :
    highestFirst ((x ++ v).setWidth 64) (n + 8) = highestFirst (x.setWidth 64) n ++ msbFirst v := by
  induction n with
  | zero =>
    rw [Nat.zero_add, highestFirst_lowByte, BitVec.extractLsb'_setWidth_of_le (by decide),
      BitVec.extractLsb'_append_eq_right]
    rfl
  | succ n ih =>
    have hbit : ((x ++ v).setWidth 64).getLsbD (n + 8) = (x.setWidth 64).getLsbD n := by
      by_cases hn : n < w
      · have h64 : n + 8 < 64 := by omega
        have h64' : n < 64 := by omega
        simp [BitVec.getLsbD_append, h64, h64']
      · simp [BitVec.getLsbD_append, BitVec.getLsbD_of_ge x n (by omega)]
    rw [Nat.add_right_comm, highestFirst_succ _ (n + 8), highestFirst_succ _ n, ih, hbit,
      List.cons_append]

/-- Zero-extension of bytes in a row puts its zeros above the first one. -/
theorem setWidth_append_byte {w k : Nat} (x : BitVec w) (v : Byte) :
    (x ++ v).setWidth (k + 8) = x.setWidth k ++ v := by
  rw [BitVec.setWidth_append_of_eq rfl, BitVec.setWidth_eq]

/-- The 56 bits of a date and time response under zeros (30_encoding.md R73). -/
theorem dateTimeBits_setWidth (d : DateTime) : (dateTimeBits d).setWidth 64 =
    0#8 ++ bcd d.yy ++ bcd d.mo ++ bcd d.dd ++ bcd d.wd ++ bcd d.hh ++ bcd d.mi ++ bcd d.ss := by
  have hyear : (bcd d.yy).setWidth 16 = 0#8 ++ bcd d.yy := BitVec.setWidth_eq_append (by decide)
  rw [← hyear]
  simp only [← setWidth_append_byte]
  rfl

/-- The 24 bits of a time response under zeros (R73). -/
theorem timeBits_setWidth (d : DateTime) :
    (timeBits d).setWidth 64 = 0#40 ++ bcd d.hh ++ bcd d.mi ++ bcd d.ss := by
  have hhour : (bcd d.hh).setWidth 48 = 0#40 ++ bcd d.hh := BitVec.setWidth_eq_append (by decide)
  rw [← hhour, ← setWidth_append_byte, ← setWidth_append_byte]
  rfl

theorem highestFirst_dateTimeBits (d : DateTime) :
    highestFirst ((dateTimeBits d).setWidth 64) 56 =
      msbFirst (bcd d.yy) ++ msbFirst (bcd d.mo) ++ msbFirst (bcd d.dd) ++ msbFirst (bcd d.wd) ++
        msbFirst (bcd d.hh) ++ msbFirst (bcd d.mi) ++ msbFirst (bcd d.ss) := by
  rw [dateTimeBits]
  simp (disch := decide) only [highestFirst_append_byte, highestFirst_byte]

theorem highestFirst_timeBits (d : DateTime) :
    highestFirst ((timeBits d).setWidth 64) 24 =
      msbFirst (bcd d.hh) ++ msbFirst (bcd d.mi) ++ msbFirst (bcd d.ss) := by
  rw [timeBits]
  simp (disch := decide) only [highestFirst_append_byte, highestFirst_byte]

end ResponseBytes

/-! The draw that a sampling command runs with (R139). -/

section Draw

variable {s s' t t' : State} {d : DateTime}

theorem withTime_of_admitted (h : admitTime s.now = some d) (use : DateTime → State) :
    withTime s use = .next (use d) := by
  rw [withTime, h]

/-- The same time answer makes a sampling command leave the same RTC. -/
theorem withTime_rtc_agree {f : DateTime → Rtc} (hn : s.now = s'.now)
    (h : withTime s (fun d => setRtc (f d) s) = .next t)
    (h' : withTime s' (fun d => setRtc (f d) s') = .next t') : t.rtc = t'.rtc := by
  rcases withTime_cases s (fun d => setRtc (f d) s) with ⟨d, hd, hs⟩ | ⟨-, hs⟩
  · rw [hs] at h
    rw [withTime_of_admitted (hn ▸ hd)] at h'
    cases h; cases h'
    rfl
  · rw [hs] at h; cases h

end Draw

/-- Settles O24: the queued constant has eight bits, which come out from the highest down. -/
theorem statusReadQueuesTheConstant : Obligations.StatusReadQueuesTheConstant := by
  refine fun s k => ⟨_, rfl, rfl, ?_⟩
  rw [readBits_of_queued 8 k rfl]
  exact congrArg (· ++ _) (highestFirst_byte statusByte)

/-- Settles O25: the draw is admitted, and its seven bytes come out from the highest down. -/
theorem datetimeReadQueuesSevenBytes : Obligations.DatetimeReadQueuesSevenBytes := by
  intro s d k hd
  refine ⟨_, withTime_of_admitted hd _, ?_, ?_⟩
  · rw [← dateTimeBits_setWidth]; rfl
  · rw [readBits_of_queued 56 k rfl, ← highestFirst_dateTimeBits]; rfl

/-- Settles O26: the draw is admitted, and its three bytes come out from the highest down. -/
theorem timeReadQueuesThreeBytes : Obligations.TimeReadQueuesThreeBytes := by
  intro s d k hd
  refine ⟨_, withTime_of_admitted hd _, ?_, ?_⟩
  · rw [← timeBits_setWidth]; rfl
  · rw [readBits_of_queued 24 k rfl, ← highestFirst_timeBits]; rfl

/-- Settles O33: the completing bit is the dispatch of the byte, whose response is a constant or a
function of the draw. -/
theorem responsesDependOnTheDrawAlone : Obligations.ResponsesDependOnTheDrawAlone := by
  intro s s' t t' b cmd hcmd h0 h0' hw hw' hbyte hbyte' hn h h'
  rw [rtcWriteBit_of_dispatch b h0 (by rw [hw]; rfl), appendBit_lowByte, hbyte] at h
  rw [rtcWriteBit_of_dispatch b h0' (by rw [hw']; rfl), appendBit_lowByte, hbyte'] at h'
  rcases hcmd with rfl | rfl | rfl
  · cases h; cases h'
    rfl
  · exact withTime_rtc_agree hn h h'
  · exact withTime_rtc_agree hn h h'

/-- Settles O27: eight zero bits assemble the byte 0x00, whose capture clears the RTC. -/
theorem nullCommandStaysIdle : Obligations.NullCommandStaysIdle :=
  fun s => ⟨rfl, fun h0 hw =>
    (eightBitsAssembleTheCommand s 0#1 0#1 0#1 0#1 0#1 0#1 0#1 0#1 h0 hw).trans rfl⟩

/-! Unrecognised bytes and the lockup. -/

section Lockup

variable {s t : State}

theorem execCmdUnrecognised_lockup (hm : s.mode = .lockup) (cmd : Byte) :
    execCmdUnrecognised cmd s = .next (setRtc (captureCommand cmd) s) := by
  rw [execCmdUnrecognised, hm]

theorem execCmdUnrecognised_ignore (hm : s.mode = .ignore) (cmd : Byte) :
    execCmdUnrecognised cmd s = .next (setRtc Rtc.reset s) := by
  rw [execCmdUnrecognised, hm, returnToIdle_captureCommand]

/-- Whether the RTC is locked is read off `state` alone. -/
theorem locked_of_state_eq {r r' : Rtc} (h : r'.state = r.state) (hl : Locked r) : Locked r' := by
  rwa [Locked, h]

/-- A data write leaves the `state` of a locked RTC: a sent bit is only appended (R109). -/
theorem writeData_keeps_locked_state {v : HalfWord} (hl : Locked s.rtc)
    (h : writeData v s = .next t) : t.rtc.state = s.rtc.state := by
  rcases writeData_cases v s with ⟨-, hw⟩ | ⟨-, -, hw⟩ | ⟨-, -, hw⟩
  · rw [hw] at h; cases h
    rfl
  · have hbit := writeBits_of_locked [sio (lowLines v)] (s := setData (lowLines v) s) hl
    rw [writeBits_singleton] at hbit
    rw [hw, hbit] at h; cases h
    rfl
  · rw [hw] at h; cases h
    exact afterReadBit_state s.rtc

/-- Of all requests `Init` alone changes the `state` of a locked RTC. -/
theorem step_keeps_locked_state {input : Input} {rest : List Input} (hl : Locked s.rtc)
    (hp : s.pending = input :: rest) (hreq : input.request ≠ .init) (h : step s = .next t) :
    t.rtc.state = s.rtc.state := by
  by_contra hne
  obtain hinit | ⟨v, hr, -⟩ := phaseChangesOnlyOnWrittenBits.2 s t input rest hp h hne
  · exact hreq hinit
  · rw [step_eq_exec hp (i := .wrData v) (by rw [hr]; rfl)] at h
    obtain ⟨-, hw⟩ := whenInitialised_next h
    exact hne (writeData_keeps_locked_state
      (s := { s with pending := rest, now := input.time }) hl hw)

end Lockup

/-- Settles O28: the captured byte is a locked state, in which bits are only appended and nothing is
queued. -/
theorem unrecognisedByteLocks : Obligations.UnrecognisedByteLocks := by
  intro s cmd hu hm
  obtain ⟨h0, hl, -⟩ := unrecognised_locks cmd hu
  refine ⟨_, execCmdUnrecognised_lockup (s := captured cmd s) hm cmd, rfl, fun bits => ?_⟩
  refine ⟨_, writeBits_of_locked bits ⟨h0, hl⟩, appendBits_state bits _, fun k => ?_⟩
  exact readBits_of_idle k _ (appendBits_numRbits bits _)

/-- Settles O29: in this mode the byte goes back to idle from what its capture cleared. -/
theorem unrecognisedByteIgnored : Obligations.UnrecognisedByteIgnored :=
  fun s cmd _ hm =>
    have hexec := execCmdUnrecognised_ignore (s := captured cmd s) hm cmd
    ⟨hexec, hexec⟩

/-- Settles O30: `Init` resets the RTC, and every other request keeps a locked `state`. -/
theorem onlyInitEndsTheLockup : Obligations.OnlyInitEndsTheLockup := by
  intro s t input rest _ hl hp h
  refine ⟨fun hreq => ?_, fun hreq => ?_⟩
  · rw [step_eq_exec hp (i := .init) (by rw [hreq]; rfl)] at h
    cases h
    exact phase_idle
  · have hstate := step_keeps_locked_state hl hp hreq h
    exact ⟨hstate, locked_of_state_eq hstate hl⟩

end Sys2Proof.Machine

/-! The BCD family (43_bcd.md): an admitted time answer lets every data write complete (R139), and the
two digits of a BCD byte as numbers (R133-R136). -/

namespace Sys2Proof.Machine

/-! The time-source boundary as the one thing that can refuse a data write. -/

section AdmittedTime

variable {s : State}

/-- With an admitted time answer a written bit always has a next state. -/
theorem rtcWriteBit_of_admitted (h : (admitTime s.now).isSome = true) (b : Bit) :
    ∃ r, rtcWriteBit b s = .next (setRtc r s) := by
  rcases rtcWriteBit_next_or b s with hr | ⟨hn, -⟩
  · exact hr
  · simp [hn] at h

/-- With an admitted time answer a data write completes: it stores its value but for bit SIO, which is
the written one too when SIO is host-driven, and changes at most the RTC besides. -/
theorem writeData_of_admitted (h : (admitTime s.now).isSome = true) (v : HalfWord) :
    ∃ b r, writeData v s = .next (setRtc r (setData (setSio b (lowLines v)) s)) ∧
      (sio s.gpio.direction = 1#1 → b = sio (lowLines v)) := by
  rcases writeData_cases v s with ⟨-, hw⟩ | ⟨-, -, hw⟩ | ⟨-, hd, hw⟩
  · exact ⟨_, s.rtc, by rw [hw, setSio_sio]; rfl, fun _ => rfl⟩
  · obtain ⟨r, hr⟩ := rtcWriteBit_of_admitted (s := setData (lowLines v) s) h (sio (lowLines v))
    exact ⟨_, r, by rw [hw, hr, setSio_sio], fun _ => rfl⟩
  · exact ⟨outgoingBit s.rtc, afterReadBit s.rtc, hw, fun hsio => absurd hsio hd⟩

end AdmittedTime

/-- Settles O13: only a refused time answer stops a data write, and bit SIO alone may differ from the
written value. -/
theorem dataWriteCompletesAndFrames : Obligations.DataWriteCompletesAndFrames := by
  intro s v hi ht
  obtain ⟨b, r, hw, hb⟩ := writeData_of_admitted ht v
  refine ⟨_, b, (exec_wrData hi v).trans hw, ?_, fun hd => ?_⟩
  · rw [setSio_lowLines]; rfl
  · rw [← sio_lowLines]
    exact hb ((sio_eq_one_iff _).2 hd)

/-! The two digits of a byte, as the quotient and the remainder of its value by 16. -/

section Digits

theorem highDigit_toNat (b : Byte) : (b.extractLsb' 4 4).toNat = b.toNat / 16 := by
  rw [BitVec.extractLsb'_toNat, Nat.shiftRight_eq_div_pow]
  omega

theorem lowDigit_toNat (b : Byte) : (b.extractLsb' 0 4).toNat = b.toNat % 16 := by
  rw [BitVec.extractLsb'_toNat, Nat.shiftRight_zero]

theorem decimal_eq (b : Byte) : decimal b = 10 * (b.toNat / 16) + b.toNat % 16 := by
  rw [decimal, BitVec.toNat_ushiftRight, Nat.shiftRight_eq_div_pow, BitVec.toNat_and]
  exact congrArg _ (Nat.and_two_pow_sub_one_eq_mod _ 4)

theorem bcd_toNat (x : Fin 100) : (bcd x).toNat = 16 * (x.val / 10) + x.val % 10 := by
  have htens : (BitVec.ofNat 8 (x.val / 10) <<< 4).toNat = 2 ^ 4 * (x.val / 10) := by
    rw [BitVec.toNat_shiftLeft, BitVec.toNat_ofNat, Nat.shiftLeft_eq]; omega
  have hunits : (BitVec.ofNat 8 (x.val % 10)).toNat = x.val % 10 := by
    rw [BitVec.toNat_ofNat]; omega
  rw [bcd, BitVec.toNat_or, htens, hunits]
  exact (Nat.two_pow_add_eq_or_of_lt (by omega) _).symm

theorem bcd_highDigit (x : Fin 100) : ((bcd x).extractLsb' 4 4).toNat = x.val / 10 := by
  rw [highDigit_toNat, bcd_toNat]; omega

theorem bcd_lowDigit (x : Fin 100) : ((bcd x).extractLsb' 0 4).toNat = x.val % 10 := by
  rw [lowDigit_toNat, bcd_toNat]; omega

theorem decimal_bcd (x : Fin 100) : decimal (bcd x) = x.val := by
  rw [decimal_eq, bcd_toNat]; omega

/-- A byte whose digits are both 0 to 9 is the BCD byte of its decimal value (R136). -/
theorem bcd_decimal {b : Byte} (hhigh : b.toNat / 16 ≤ 9) (hlow : b.toNat % 16 ≤ 9) :
    ∃ h : decimal b < 100, bcd ⟨decimal b, h⟩ = b := by
  have hdec := decimal_eq b
  refine ⟨by omega, BitVec.eq_of_toNat_eq ?_⟩
  rw [bcd_toNat]
  dsimp only
  omega

end Digits

/-- Settles O35: the digits of `bcd x` are quotient and remainder of `x` by 10; a byte with such digits
is the BCD byte of its decimal value, and no other byte is a BCD byte. -/
theorem bcdAndDecimalAreInverse : Obligations.BcdAndDecimalAreInverse := by
  have htens (x : Fin 100) : x.val / 10 ≤ 9 := by omega
  have hunits (x : Fin 100) : x.val % 10 ≤ 9 := by omega
  refine ⟨fun x => ⟨?_, ?_, htens x, hunits x, decimal_bcd x⟩, fun b => ⟨?_, ?_⟩⟩
  · rw [← bcd_highDigit, BitVec.ofNat_toNat, BitVec.setWidth_eq]
  · rw [← bcd_lowDigit, BitVec.ofNat_toNat, BitVec.setWidth_eq]
  · rintro ⟨hhigh, hlow⟩
    exact bcd_decimal (highDigit_toNat b ▸ hhigh) (lowDigit_toNat b ▸ hlow)
  · rintro ⟨h, hb⟩
    rw [← hb, bcd_highDigit, bcd_lowDigit]
    exact ⟨htens _, hunits _⟩

end Sys2Proof.Machine

/-! The exceptions family (60_exceptions.md): the outcome kinds of a step (R147). Before the
first `Init` every other request is refused (R159); an admitted one is refused only for a time answer
that it samples (R139). -/

namespace Sys2Proof.Machine

/-! What a decoded request answers, after the first `Init` and before it. -/

section Outcomes

variable {s : State} {request : Request} {i : Instr}

/-- A dispatch that samples an answer outside `DateTime` is refused (R139). -/
theorem withTime_of_refused (h : admitTime s.now = none) (use : DateTime → State) :
    withTime s use = .refused .timeOutOfRange := by
  rw [withTime, h]

/-- Of the writes a data write alone can be refused, and only for the time answer it samples. -/
theorem exec_decodeWrite_next_or (hi : s.initialised = true) (addr : Addr) (v : HalfWord) :
    (∃ t, exec (decodeWrite addr v) s = .next t) ∨
      (exec (decodeWrite addr v) s = .refused .timeOutOfRange ∧ admitTime s.now = none) := by
  unfold decodeWrite
  split
  · rw [exec_wrData hi]
    rcases writeData_next_or v s with ⟨d, r, hw⟩ | ⟨hn, hw⟩
    · exact .inl ⟨_, hw⟩
    · exact .inr ⟨hw, hn⟩
  split
  · exact .inl ⟨_, whenInitialised_of hi _⟩
  split
  · exact .inl ⟨_, whenInitialised_of hi _⟩
  · exact .inl ⟨_, whenInitialised_of hi _⟩

/-- An admitted request has a next state or samples a refused time answer. -/
theorem exec_decodeRequest_next_or (hd : decodeRequest request = .ok i)
    (ha : i = .init ∨ s.initialised = true) :
    (∃ t, exec i s = .next t) ∨
      (exec i s = .refused .timeOutOfRange ∧ admitTime s.now = none) := by
  rcases ha with rfl | hi
  · exact .inl ⟨_, rfl⟩
  cases request with
  | init => cases hd; exact .inl ⟨_, rfl⟩
  | read addr => cases hd; exact .inl ⟨_, exec_read s addr hi⟩
  | write addr v => cases hd; exact exec_decodeWrite_next_or hi addr v
  | foreign width isWrite addr => cases hd

/-- Before the first `Init` every other request is refused (R159). -/
theorem exec_decodeRequest_uninitialised (hd : decodeRequest request = .ok i) (hne : i ≠ .init)
    (hi : s.initialised = false) : exec i s = .refused .notInitialised := by
  cases request with
  | init => cases hd; exact absurd rfl hne
  | read addr => cases hd; exact exec_read_uninitialised s addr hi
  | write addr v => cases hd; exact exec_write_uninitialised s addr v hi
  | foreign width isWrite addr => cases hd

end Outcomes

/-- Settles O2: there is no fault to end in; the two dispatches sample through `withTime`; and a step
answers what its decoded request answers with the input's time at the `now` port. -/
theorem outcomeKinds : Obligations.OutcomeKinds := by
  intro s
  refine ⟨nofun, fun hn => ⟨withTime_of_refused hn _, withTime_of_refused hn _⟩, ?_⟩
  intro input rest hp
  refine ⟨fun width isWrite addr hreq => ?_, fun i hd hne hi => ?_, fun i hd ha => ?_⟩
  · exact step_eq_accessWidth hp (by rw [hreq]; rfl)
  · rw [step_eq_exec hp hd]
    exact exec_decodeRequest_uninitialised hd hne hi
  · rw [step_eq_exec hp hd]
    exact exec_decodeRequest_next_or (s := { s with pending := rest, now := input.time }) hd ha

end Sys2Proof.Machine

/-! The encoder and the byte frames against the decoder (30_encoding.md sections 1, 2 and 6). -/

namespace Sys2Proof

section RoundTrip

/-- A record's own frame decodes to the record's instruction. -/
theorem decodeBytes_bytes (e : Encoded) : decodeBytes e.bytes = .ok (decode e) := by
  rw [decodeBytes, parseFrame_bytes]

theorem decode_encode (i : Instr) (h : i.wf = true) : decode (encode i) = i := by
  cases i with
  | rdOther addr => exact Laws.EncodeDecode.rdOther addr h
  | wrOther addr value => exact Laws.EncodeDecode.wrOther addr value h
  | cmdReset rw => exact Laws.EncodeDecode.cmdReset rw h
  | cmdUnrecognised cmd => exact Laws.EncodeDecode.cmdUnrecognised cmd h
  | _ => rfl

/-- Four bytes, lowest first, are the frame of the offset they make up. -/
theorem bytes_reqRead_append (a0 a1 a2 a3 : Byte) :
    (Encoded.reqRead (a3 ++ a2 ++ a1 ++ a0)).bytes = [a0, a1, a2, a3] := by
  simp (disch := decide) only [Encoded.bytes, BitVec.extractLsb'_append_eq_of_le,
    BitVec.extractLsb'_append_eq_of_add_le, Nat.reduceSub, BitVec.extractLsb'_eq_self]

/-- The frame of a write is that of the read of its offset with the value behind it. -/
theorem bytes_reqWrite (addr : Addr) (value : HalfWord) :
    (Encoded.reqWrite addr value).bytes =
      (Encoded.reqRead addr).bytes ++ [value.extractLsb' 0 8, value.extractLsb' 8 8] := rfl

/-- Only a frame of one of the four lengths parses, and it is the frame of the record it gives. -/
theorem bytes_of_parseFrame {bs : List Byte} {e : Encoded} (h : parseFrame bs = .ok e) :
    e.bytes = bs := by
  unfold parseFrame at h
  split at h
  · cases h; rfl
  · cases h; rfl
  · cases h
    exact bytes_reqRead_append _ _ _ _
  · cases h
    rw [bytes_reqWrite, bytes_reqRead_append, BitVec.extractLsb'_append_eq_right,
      BitVec.extractLsb'_append_eq_left]
    rfl
  · cases h

/-- Bytes that decode are the frame of a record. -/
theorem decodeBytes_eq_ok {bs : List Byte} {i : Instr} (h : decodeBytes bs = .ok i) :
    ∃ e : Encoded, e.bytes = bs ∧ decode e = i := by
  unfold decodeBytes at h
  cases hp : parseFrame bs with
  | ok e => rw [hp] at h; cases h; exact ⟨e, bytes_of_parseFrame hp, rfl⟩
  | error x => rw [hp] at h; cases h

theorem unmapped_of_ne {addr : Addr} (hdata : addr ≠ dataOffset) (hdir : addr ≠ dirOffset)
    (hen : addr ≠ enOffset) : unmapped addr = true := by
  simp [unmapped, hdata, hdir, hen]

/-- The read of an offset keeps the offset: a register's by its row, any other as the operand. -/
theorem encode_decodeRead (addr : Addr) :
    encode (decodeRead addr) = .reqRead addr ∧ (decodeRead addr).wf = true := by
  unfold decodeRead
  split_ifs with hdata hdir hen
  · exact ⟨by rw [hdata]; rfl, rfl⟩
  · exact ⟨by rw [hdir]; rfl, rfl⟩
  · exact ⟨by rw [hen]; rfl, rfl⟩
  · exact ⟨rfl, unmapped_of_ne hdata hdir hen⟩

theorem encode_decodeWrite (addr : Addr) (value : HalfWord) :
    encode (decodeWrite addr value) = .reqWrite addr value ∧
      (decodeWrite addr value).wf = true := by
  unfold decodeWrite
  split_ifs with hdata hdir hen
  · exact ⟨by rw [hdata]; rfl, rfl⟩
  · exact ⟨by rw [hdir]; rfl, rfl⟩
  · exact ⟨by rw [hen]; rfl, rfl⟩
  · exact ⟨rfl, unmapped_of_ne hdata hdir hen⟩

/-- Every command byte is the encoding of its class (R69): the listed ones by their row, any other
as the operand. -/
theorem encode_decodeCommand : ∀ cmd : Byte,
    encode (decodeCommand cmd) = .cmdByte cmd ∧ (decodeCommand cmd).wf = true := by
  decide

/-- The decoder gives well-formed instructions, and loses nothing of what it decodes. -/
theorem encode_decode (e : Encoded) : encode (decode e) = e ∧ (decode e).wf = true := by
  cases e with
  | reqInit => exact ⟨rfl, rfl⟩
  | reqRead addr => exact encode_decodeRead addr
  | reqWrite addr value => exact encode_decodeWrite addr value
  | cmdByte cmd => exact encode_decodeCommand cmd

end RoundTrip

/-- Settles O36: the frame gives the record back, and the record the instruction. -/
theorem decodeEncodeRoundTrip : Obligations.DecodeEncodeRoundTrip := by
  intro i h
  rw [encodeBytes, decodeBytes_bytes, decode_encode i h]

/-- Settles O37: the bytes are the frame of a record, which is the encoding of its instruction. -/
theorem encodeDecodeRoundTrip : Obligations.EncodeDecodeRoundTrip := by
  intro bs i h
  obtain ⟨e, rfl, rfl⟩ := decodeBytes_eq_ok h
  obtain ⟨hencode, hwf⟩ := encode_decode e
  exact ⟨congrArg Encoded.bytes hencode, hwf⟩

/-- Settles O39: the four lengths tell the four formats, and a frame of two bytes is none. -/
theorem sampleWordsDecode : Obligations.SampleWordsDecode :=
  ⟨rfl, rfl, rfl, rfl, rfl, rfl, rfl, rfl, rfl⟩

end Sys2Proof

/-! The step and what it keeps (10_state.md, 40_gpio_bus.md): the invariant, the writers of each
register, the window view around each request, and the ports. -/

namespace Sys2Proof.Machine

/-- Settles O41: `Init` establishes the bounds, and every other request keeps them. -/
theorem stepKeepsInvariant : Obligations.StepKeepsInvariant :=
  fun _ _ => step_keeps_inv

/-- Settles O42: the reset RTC is idle with every count 0. -/
theorem resetMeetsInvariant : Obligations.ResetMeetsInvariant :=
  ⟨fun _ => reset_bounds State.reset.mode, rfl⟩

/-- Settles O1: fetching takes the input off the queue and hands its instruction to `exec`. -/
theorem stepRunsDecodedRequest : Obligations.StepRunsDecodedRequest :=
  fun _ _ _ _ => step_eq_exec

/-- Settles O4: a response is no part of the window, so the second read answers as the first. -/
theorem everyOffsetReadsItsWindowValue : Obligations.EveryOffsetReadsItsWindowValue := by
  intro s addr hi
  refine ⟨_, exec_read s addr hi, rfl, ?_⟩
  rw [exec_read _ addr (by exact hi), respond, respond_responses, List.append_assoc]
  rfl

/-! The window view (20_memory.md section 1) after a request. -/

section Window

/-- The data register shows through its own offset alone, and the RTC through none. -/
theorem readHalfword_setRtc_setData {addr : Addr} (h : addr ≠ dataOffset) (r : Rtc) (d : Lines)
    (s : State) :
    readHalfword (setRtc r (setData d s)) addr = readHalfword s addr := by
  simp [readHalfword, readGate, h]

/-- A store of the enable a register already holds is no change. -/
theorem setReadEnabled_self (s : State) : setReadEnabled s.gpio.readEnabled s = s := rfl

theorem lowBit_eq_zero_iff (v : HalfWord) : lowBit v = 0#1 ↔ v.getLsbD 0 = false := by
  rw [bit_eq_zero_iff]; simp [lowBit]

theorem lowBit_eq_one_iff (v : HalfWord) : lowBit v = 1#1 ↔ v.getLsbD 0 = true := by
  rw [bit_eq_one_iff]; simp [lowBit]

end Window

/-- Settles O14: the window shows no response and nothing of the RTC, and each register at its own
offset, all behind the enable. -/
theorem otherOffsetsReadAsBefore : Obligations.OtherOffsetsReadAsBefore := by
  intro s t addr addr' v
  refine ⟨fun h => ?_, fun _ h => ?_, fun h haddr => ?_, fun h haddr => ?_, fun h => ?_⟩
  · rw [exec_decodeRead] at h
    obtain ⟨-, ⟨⟩⟩ := whenInitialised_next h
    rfl
  · obtain ⟨-, ⟨⟩⟩ := whenInitialised_next h
    rfl
  · obtain ⟨-, ⟨⟩⟩ := whenInitialised_next h
    exact readHalfword_setDirection haddr _ s
  · obtain ⟨-, hw⟩ := whenInitialised_next h
    obtain ⟨b, r, rfl⟩ := writeData_frame hw
    exact readHalfword_setRtc_setData haddr r _ s
  · obtain ⟨-, ⟨⟩⟩ := whenInitialised_next h
    refine ⟨fun hv => readHalfword_of_disabled ((lowBit_eq_zero_iff v).2 hv) addr,
      fun hv hen => ?_⟩
    rw [(lowBit_eq_one_iff v).2 hv, ← hen, setReadEnabled_self]

/-- Settles O45: the cases of a step, with a data write's frame; a data write that is no edge stores
alone. -/
theorem registersChangeOnlyByTheirWriters : Obligations.RegistersChangeOnlyByTheirWriters := by
  intro s t input rest hp h hne
  obtain ⟨input', rest', hp', hcase⟩ := step_cases h
  obtain ⟨rfl, rfl⟩ : input = input' ∧ rest = rest' := List.cons.inj (hp.symm.trans hp')
  rcases hcase with ⟨hr, -⟩ | ⟨-, a, -, rfl⟩ | ⟨-, v, hr, hw⟩ | ⟨-, v, hr, rfl⟩ | ⟨-, v, hr, rfl⟩ |
    ⟨-, a, v, -, -, rfl⟩
  · exact absurd hr hne
  · exact ⟨absurd rfl, absurd rfl, absurd rfl, absurd rfl, rfl⟩
  · have hclock (hrtc : t.rtc ≠ s.rtc) : ClocksABit s v := by
      by_contra hno
      rw [writeData_of_not_clocksABit (by exact hno)] at hw; cases hw
      exact hrtc rfl
    obtain ⟨b, r, rfl⟩ := writeData_frame hw
    exact ⟨fun _ => ⟨v, hr⟩, absurd rfl, absurd rfl, fun hrtc => ⟨v, hr, hclock hrtc⟩, rfl⟩
  · exact ⟨absurd rfl, fun _ => ⟨v, hr⟩, absurd rfl, absurd rfl, rfl⟩
  · exact ⟨absurd rfl, absurd rfl, fun _ => ⟨v, hr⟩, absurd rfl, rfl⟩
  · exact ⟨absurd rfl, absurd rfl, absurd rfl, absurd rfl, rfl⟩

/-- Settles O47: each case of a step starts from the queue without the input and its answer at the
`now` port, and a read alone responds. -/
theorem eachStepHandlesOneRequest : Obligations.EachStepHandlesOneRequest := by
  intro s t h
  obtain ⟨input, rest, hp, hcase⟩ := step_cases h
  have hwrite {a : Addr} {v : HalfWord} (hr : input.request = .write a v) (addr : Addr) :
      input.request ≠ .read addr := by
    rw [hr]; exact nofun
  refine ⟨input, ?_⟩
  rcases hcase with ⟨hr, hx⟩ | ⟨-, a, hr, rfl⟩ | ⟨-, v, hr, hw⟩ | ⟨-, v, hr, rfl⟩ |
    ⟨-, v, hr, rfl⟩ | ⟨-, a, v, hr, -, rfl⟩
  · cases hx
    exact ⟨hp, rfl, rfl, .inr ⟨by rw [hr]; nofun, rfl⟩⟩
  · exact ⟨hp, rfl, rfl, .inl ⟨a, hr, rfl⟩⟩
  · obtain ⟨b, r, rfl⟩ := writeData_frame hw
    exact ⟨hp, rfl, rfl, .inr ⟨hwrite hr, rfl⟩⟩
  · exact ⟨hp, rfl, rfl, .inr ⟨hwrite hr, rfl⟩⟩
  · exact ⟨hp, rfl, rfl, .inr ⟨hwrite hr, rfl⟩⟩
  · exact ⟨hp, rfl, rfl, .inr ⟨hwrite hr, rfl⟩⟩

/-! The time source (00_scope.md section 5): a sample is refused only outside `DateTime`. -/

/-- A step refused for its time answer took an input whose answer is no `DateTime`. -/
theorem admitTime_of_step_refused {s : State} (h : step s = .refused .timeOutOfRange) :
    ∃ input ∈ s.pending, admitTime input.time = none := by
  cases hp : s.pending with
  | nil => rw [step_eq_noRequest hp] at h; cases h
  | cons input rest =>
    refine ⟨input, List.mem_cons_self, ?_⟩
    cases hd : decodeRequest input.request with
    | error width => rw [step_eq_accessWidth hp hd] at h; cases h
    | ok i =>
      obtain ⟨-, -, hrequest⟩ := outcomeKinds s
      obtain ⟨-, hrefused, hadmitted⟩ := hrequest input rest hp
      by_cases ha : i = .init ∨ s.initialised = true
      · rcases hadmitted i hd ha with ⟨t, ht⟩ | ⟨-, hn⟩
        · rw [ht] at h; cases h
        · exact hn
      · obtain ⟨hinit, hi⟩ := not_or.1 ha
        rw [hrefused i hd hinit (by simpa using hi)] at h; cases h

/-- Settles O52: every answer to come is admitted, so none is refused; and a step takes one of them
off the queue and puts it at the `now` port. -/
theorem timeSourceThatMeetsThePredicateIsNeverRefused :
    Obligations.TimeSourceThatMeetsThePredicateIsNeverRefused := by
  intro timeValid s hmeets
  refine ⟨fun h => ?_, fun t h => ?_⟩
  · obtain ⟨input, hmem, hnone⟩ := admitTime_of_step_refused h
    obtain ⟨d, hsome, -⟩ := hmeets input hmem
    rw [hnone] at hsome; cases hsome
  · obtain ⟨input, hp, hnow, -⟩ := eachStepHandlesOneRequest s t h
    rw [TimeSourceMeets, hp, List.forall_mem_cons] at hmeets
    obtain ⟨hhead, htail⟩ := hmeets
    exact ⟨htail, hnow ▸ hhead⟩

/-! A BCD byte in its calendar range, and the digits of a response as a whole (R73, R133). -/

section Calendar

/-- `bcd` keeps the order of its arguments: the tens digit stands above the units digit. -/
theorem bcd_le_bcd {x y : Fin 100} (h : x.val ≤ y.val) : bcd x ≤ bcd y := by
  rw [BitVec.le_def, bcd_toNat, bcd_toNat]
  omega

/-- Every group of four bits, from bit 0 up, is a decimal digit. -/
def DecimalDigits {w : Nat} (x : BitVec w) : Prop :=
  ∀ k, (x.extractLsb' (4 * k) 4).toNat ≤ 9

theorem decimalDigits_zero (w : Nat) : DecimalDigits 0#w := by
  intro k
  rw [BitVec.extractLsb'_zero]
  exact Nat.zero_le 9

theorem decimalDigits_append_bcd {w : Nat} {x : BitVec w} (h : DecimalDigits x) (d : Fin 100) :
    DecimalDigits (x ++ bcd d) := by
  intro k
  match k with
  | 0 =>
    rw [BitVec.extractLsb'_append_eq_of_add_le (by decide), bcd_lowDigit]
    omega
  | 1 =>
    rw [BitVec.extractLsb'_append_eq_of_add_le (by decide), bcd_highDigit]
    omega
  | k + 2 =>
    rw [BitVec.extractLsb'_append_eq_of_le (by omega), show 4 * (k + 2) - 8 = 4 * k by omega]
    exact h k

/-- The three lowest bytes of a row of bytes. -/
theorem extractLsb'_append_three_bytes {w : Nat} (x : BitVec w) (a b c : Byte) :
    (x ++ a ++ b ++ c).extractLsb' 16 8 = a ∧ (x ++ a ++ b ++ c).extractLsb' 8 8 = b ∧
      (x ++ a ++ b ++ c).extractLsb' 0 8 = c := by
  simp (disch := decide) only [BitVec.extractLsb'_append_eq_of_le,
    BitVec.extractLsb'_append_eq_right, Nat.reduceSub, true_and]

/-- The time of day that the default predicate admits (D14). -/
theorem timeOfDay_of_timeValidDefault {d : DateTime} (h : Config.timeValidDefault d = true) :
    d.hh.val ≤ 23 ∧ d.mi.val ≤ 59 ∧ d.ss.val ≤ 59 := by
  simp only [Config.timeValidDefault, Bool.and_eq_true, decide_eq_true_eq] at h
  omega

end Calendar

/-- Settles O34: the response is the BCD bytes of the draw, each the `bcd` of a number in its range. -/
theorem validDrawsGiveCalendarBytes : Obligations.ValidDrawsGiveCalendarBytes := by
  intro timeValid s t d hd hvalid h
  obtain ⟨t', ht', hstate, -⟩ := timeReadQueuesThreeBytes s d 0 hd
  obtain rfl : t' = t := by rw [ht'] at h; cases h; rfl
  have hbits : t'.rtc.rbits = 0#40 ++ bcd d.hh ++ bcd d.mi ++ bcd d.ss := by rw [hstate]
  refine ⟨⟨d, hvalid, hbits⟩, fun hdefault => ?_⟩
  obtain ⟨hhour, hminute, hsecond⟩ := timeOfDay_of_timeValidDefault (hdefault d hvalid)
  obtain ⟨hhh, hmi, hss⟩ := extractLsb'_append_three_bytes 0#40 (bcd d.hh) (bcd d.mi) (bcd d.ss)
  have hdigits : DecimalDigits (0#40 ++ bcd d.hh ++ bcd d.mi ++ bcd d.ss) :=
    decimalDigits_append_bcd (decimalDigits_append_bcd
      (decimalDigits_append_bcd (decimalDigits_zero 40) d.hh) d.mi) d.ss
  rw [hbits, hhh, hmi, hss]
  exact ⟨bcd_le_bcd (y := 23) hhour, bcd_le_bcd (y := 59) hminute,
    bcd_le_bcd (y := 59) hsecond, fun k _ => hdigits k⟩

/-! Opcode-table words and their placing (log 6, log 7). -/

section PlacedWord

variable {s : State}

/-- The low bytes of a word are its bits in groups of eight. -/
theorem lowBytes_eq_map (n w : Nat) :
    lowBytes n w = (List.range n).map fun j => BitVec.ofNat 8 (w >>> (8 * j)) := by
  induction n generalizing w with
  | zero => rfl
  | succ n ih =>
    rw [lowBytes, ih, List.range_succ_eq_map, List.map_cons, List.map_map]
    refine congrArg _ (List.map_congr_left fun j _ => ?_)
    rw [Function.comp_apply, Nat.mul_succ, Nat.add_comm, Nat.shiftRight_add,
      Nat.shiftRight_eq_div_pow w 8]

theorem lowBytes_toNat {w : Nat} (n : Nat) (x : BitVec w) :
    lowBytes n x.toNat = (List.range n).map fun j => x.extractLsb' (8 * j) 8 :=
  lowBytes_eq_map n x.toNat

/-- 8 bits are a command byte. -/
theorem parseTableWord_cmdByte (cmd : Byte) : parseTableWord 8 cmd.toNat = .ok (.cmdByte cmd) := by
  rw [← parseFrame_bytes, parseTableWord, lowBytes_toNat]
  exact congrArg (fun c => parseFrame [c]) BitVec.extractLsb'_eq_self

/-- 32 bits are the offset of a read. -/
theorem parseTableWord_reqRead (addr : Addr) :
    parseTableWord 32 addr.toNat = .ok (.reqRead addr) := by
  rw [← parseFrame_bytes, parseTableWord, lowBytes_toNat]
  rfl

/-- 48 bits are a write, the offset below the value. -/
theorem parseTableWord_reqWrite (addr : Addr) (value : HalfWord) :
    parseTableWord 48 (value.toNat * 2 ^ 32 + addr.toNat) = .ok (.reqWrite addr value) := by
  have hword : value.toNat * 2 ^ 32 + addr.toNat = (value ++ addr).toNat := by
    rw [BitVec.toNat_append, ← Nat.shiftLeft_eq, Nat.shiftLeft_add_eq_or_of_lt addr.isLt]
  have hframe : (List.range 6).map (fun j => (value ++ addr).extractLsb' (8 * j) 8) =
      (Encoded.reqWrite addr value).bytes := by
    simp (disch := decide) only [List.range, List.range.loop, List.map, Nat.reduceMul,
      BitVec.extractLsb'_append_eq_of_le, BitVec.extractLsb'_append_eq_of_add_le, Nat.reduceSub,
      Encoded.bytes]
  rw [← parseFrame_bytes, parseTableWord, hword, lowBytes_toNat, ← hframe]

theorem withFetchWord_of_parse {nbits w : Nat} {e : Encoded} (h : parseTableWord nbits w = .ok e) :
    s.withFetchWord nbits w = place e s := by
  rw [State.withFetchWord, placeTableWord, h]

/-- A placed request is the next step's, with the time answer that stood at the `now` port. -/
theorem step_placeRequest {r : Request} {i : Instr} (hd : decodeRequest r = .ok i) (s : State) :
    step (placeRequest r s) = exec i s :=
  step_eq_exec (s := placeRequest r s) rfl hd

/-- The seven bits a placed command has shifted in, and its last one, are the byte (R107). -/
theorem placed_bits_byte : ∀ cmd : Byte,
    ((cmd >>> 1).setWidth 64).extractLsb' 0 7 ++ cmd.extractLsb' 0 1 = cmd := by
  decide

/-- The lines and the RTC that placing a command byte leaves to its last bit. -/
def commandReady (cmd : Byte) (s : State) : State :=
  setData (s.gpio.data &&& 0b1110#4) (setDirection (s.gpio.direction ||| 0b0010#4)
    (setRtc { s.rtc with wbits := (cmd >>> 1).setWidth 64, numWbits := 7#7, state := 0x00#8 } s))

theorem placeCommand_eq (cmd : Byte) (s : State) :
    placeCommand cmd s =
      placeRequest (.write dataOffset (highWrite (cmd.extractLsb' 0 1))) (commandReady cmd s) := rfl

/-- SCK is low and rises under CS. -/
theorem risingEdge_commandReady : ∀ (d : Lines) (b : Bit),
    risingEdge (d &&& 0b1110#4) (lowLines (highWrite b)) = true := by
  decide

theorem sio_commandReady : ∀ d : Lines, sio (d ||| 0b0010#4) = 1#1 := by decide

/-- The placed data write sends the eighth bit, which completes the byte and dispatches it. -/
theorem step_placeCommand (cmd : Byte) (hi : s.initialised = true) :
    step (placeCommand cmd s) = exec (decodeCommand cmd)
      (setData (lowLines (highWrite (cmd.extractLsb' 0 1))) (commandReady cmd s)) := by
  rw [placeCommand_eq, step_placeRequest rfl]
  refine (exec_wrData (s := commandReady cmd s) hi _).trans ?_
  rw [writeData_of_sent_bit (risingEdge_commandReady s.gpio.data _)
      (sio_commandReady s.gpio.direction),
    rtcWriteBit_of_dispatch _ rfl rfl, appendBit_lowByte, lowLines_highWrite, sio_clocked,
    ← dispatchCommand_eq_exec]
  exact congrArg (dispatchCommand · _) (placed_bits_byte cmd)

end PlacedWord

/-- Settles O51: the word parses to its record, whose request is placed first in the queue; a command
byte is placed as the data write of its last bit. -/
theorem placedWordRunsNext : Obligations.PlacedWordRunsNext := by
  intro s addr v cmd hi
  refine ⟨?_, ?_, step_placeRequest rfl s,
    setData (lowLines (highWrite (cmd.extractLsb' 0 1))) (commandReady cmd s), ?_,
    rfl, rfl, rfl, rfl, hi, rfl⟩
  · rw [withFetchWord_of_parse (parseTableWord_reqRead addr)]
    exact step_placeRequest rfl s
  · rw [withFetchWord_of_parse (parseTableWord_reqWrite addr v)]
    exact step_placeRequest rfl s
  · rw [withFetchWord_of_parse (parseTableWord_cmdByte cmd)]
    exact step_placeCommand cmd hi

end Sys2Proof.Machine
